-- ==== Sys2Proof/Word.lean ====
section
/-! DEFINITION. The word and byte types of the stream (00_scope.md R8 `WORD_W`, 20_memory.md R60). -/

namespace Sys2Proof

/-- A word of the stream: 32 bits, unsigned (00_scope.md R8, R9). -/
abbrev Word := BitVec 32

/-- A byte of the input (20_memory.md R60). -/
abbrev Byte := BitVec 8

end Sys2Proof
end

