-- ==== Sys2Proof/Config.lean ====
section
/-! DEFINITION. What a realisation fixes. The spec leaves one parameter open (00_scope.md R8,
92_eei_decisions.md D23); every other width and constant is the spec's own and stands where it is used. -/

namespace Sys2Proof

/-- `MAX_EVENTS_PER_BLOCK`, the number of events a realisation can hold before COMMIT: an OPEN parameter of the
spec (92_eei_decisions.md D23). It has no body, so nothing can be proved of its value. The machine itself is
unbounded, as 00_scope.md R8 says ("unbounded in the model"); only `Machine.State.withinCapacity` of Safety.lean,
a side condition for claims about a bounded realisation, reads it (log 8). -/
opaque Config.maxEventsPerBlock : Nat

end Sys2Proof
end

