-- ==== Sys2Proof/Syntax.lean ====
section
/-! DEFINITION. The words of the stream as instructions: one constructor per row of spec/opcode_table.json
(30_encoding.md R100), and the slots they stand in (30_encoding.md R90). -/

namespace Sys2Proof

/-- The position of a word, which decides how it is decoded (30_encoding.md R90). -/
inductive Slot where
  /-- The word the LEN step reads: a block length, or the trailer. -/
  | length
  /-- Slot 0, the first word of a block body. -/
  | descriptor
  /-- Slot 1, the second word of a block body. -/
  | header
  /-- Slots 2 to L - 1. -/
  | event
deriving DecidableEq, Repr

/-- The ten word classes of 30_encoding.md R100. An operand holds exactly the bits its class does not fix, so
that no bit of a word is dropped. -/
inductive Instr where
  /-- LEN, R92: a length word whose body of `L` words is present. -/
  | len (L : Word)
  /-- TRAILER, R97: a length word whose body is short, or the last one of the stream. -/
  | trailer (T : Word)
  /-- DESC, R93: a descriptor with a valid sync byte. -/
  | desc (rawMode : Bool) (timePerBin : BitVec 24)
  /-- DESC_BAD, R162: any other word in slot 0. -/
  | descBad (word : Word)
  /-- HDR, R94: a header with bit 31 clear. -/
  | hdr (discarded : BitVec 31)
  /-- HDR_BAD, R171: a header with bit 31 set. -/
  | hdrBad (discarded : BitVec 31)
  /-- EVT_RSV, R181: an event word with the reserved bit set. -/
  | evtRsv (overflowFlag gapFlag : Bool) (channelCode : BitVec 5) (payload : BitVec 24)
  /-- OVF, R96: an overflow word; bits 29:24 are ignored. -/
  | ovf (ignored : BitVec 6) (payload : BitVec 24)
  /-- EVT_LOWCH, R191: an event word with channel code 0 or 1. -/
  | evtLowch (gapFlag : Bool) (channelCode : BitVec 5) (time : BitVec 24)
  /-- EVT, R95: an event word with channel code 2 to 31. -/
  | evt (gapFlag : Bool) (channelCode : BitVec 5) (time : BitVec 24)
deriving DecidableEq, Repr

/-- The slot a class belongs to: the column "slot" of 30_encoding.md R100. -/
def Instr.slot : Instr → Slot
  | .len _ => .length
  | .trailer _ => .length
  | .desc _ _ => .descriptor
  | .descBad _ => .descriptor
  | .hdr _ => .header
  | .hdrBad _ => .header
  | .evtRsv _ _ _ _ => .event
  | .ovf _ _ => .event
  | .evtLowch _ _ _ => .event
  | .evt _ _ _ => .event

end Sys2Proof
end

