-- ==== Sys2Proof/WellFormed.lean ====
section
/-! DEFINITION. Which terms of `Instr` are words of their class. Most operands carry exactly the free bits of
their class, so only three rows have a check. -/

namespace Sys2Proof

/-- An instruction that some word of its slot stands for: a DESC_BAD word has neither accepted top byte
(41_descriptor.md R160 corner case (a), R162), an EVT_LOWCH code is 0 or 1 (43_event_words.md R191), an EVT code
is 2 to 31 (R185). -/
def Instr.wellFormed : Instr → Bool
  | .len _ => true
  | .trailer _ => true
  | .desc _ _ => true
  | .descBad w => w.toNat / 2 ^ 24 != 0xC1 && w.toNat / 2 ^ 24 != 0xC5
  | .hdr _ => true
  | .hdrBad _ => true
  | .evtRsv _ _ _ _ => true
  | .ovf _ _ => true
  | .evtLowch _ code _ => decide (code.toNat < 2)
  | .evt _ code _ => decide (2 ≤ code.toNat)

end Sys2Proof
end

