-- ==== Sys2Proof/Decode.lean ====
section
/-! DEFINITION. Field extraction, byte order, the classification of words by slot (30_encoding.md), the encoder,
and the decoder of bytes. -/

namespace Sys2Proof

/-! ### Byte order (20_memory.md R61) -/

/-- `Word(a)` from the four bytes at `a`, `a+1`, `a+2`, `a+3`: the first byte is the least significant. The
byte-to-bit expansion of "little-endian" is the spec's own general-knowledge passage (log 12). -/
def leWord (b0 b1 b2 b3 : Byte) : Word := b3 ++ b2 ++ b1 ++ b0

/-- The four bytes of a word in address order. -/
def leBytes (w : Word) : List Byte :=
  [w.extractLsb' 0 8, w.extractLsb' 8 8, w.extractLsb' 16 8, w.extractLsb' 24 8]

/-- The words of a run of bytes; 1 to 3 bytes left over form no word (20_memory.md R62). -/
def wordsOf : List Byte → List Word
  | b0 :: b1 :: b2 :: b3 :: rest => leWord b0 b1 b2 b3 :: wordsOf rest
  | _ => []

/-! ### Fields (30_encoding.md R98) -/

/-- The top byte, `w[31:24]`. -/
def topByte (w : Word) : Byte := w.extractLsb' 24 8

/-- `w[23:0]`, the source's `word & 0x00FFFFFF`. -/
def payloadOf (w : Word) : BitVec 24 := w.extractLsb' 0 24

/-- `w[28:24]`. -/
def channelCodeOf (w : Word) : BitVec 5 := w.extractLsb' 24 5

/-- `w[31]`. -/
def reservedHighBit (w : Word) : Bool := w.getLsbD 31

/-- `w[30]`. -/
def overflowFlag (w : Word) : Bool := w.getLsbD 30

/-- `w[29]`. -/
def gapFlagOf (w : Word) : Bool := w.getLsbD 29

/-- `w[26]`, top-byte bit 2. -/
def rawModeOf (w : Word) : Bool := w.getLsbD 26

/-- `w[29:24]` of an overflow word, which has no effect (30_encoding.md R96). -/
def ignoredOf (w : Word) : BitVec 6 := w.extractLsb' 24 6

/-- `w[30:0]` of a header word, discarded (30_encoding.md R94). -/
def discardedOf (w : Word) : BitVec 31 := w.extractLsb' 0 31

/-- `DescValid(w)`, 30_encoding.md R99: the top byte with the raw-mode bit masked out is the sync constant. -/
def descValid (w : Word) : Bool := topByte w &&& 0xFB#8 == 0xC1#8

/-! ### Classification (30_encoding.md R100) -/

/-- The result of the tag decomposer (43_event_words.md R180). -/
inductive Tag where
  | reserved
  | overflowMarker (value : BitVec 24)
  | eventFields (code : BitVec 5) (gap : Bool) (time : BitVec 24)
deriving DecidableEq, Repr

/-- `Decompose(w)`, 43_event_words.md R180: the reserved bit is tested first. -/
def decompose (w : Word) : Tag :=
  if reservedHighBit w then .reserved
  else if overflowFlag w then .overflowMarker (payloadOf w)
  else .eventFields (channelCodeOf w) (gapFlagOf w) (payloadOf w)

/-- The class of a word in an EVENT slot: the dispatch of 43_event_words.md R180. -/
def decodeEvent (w : Word) : Instr :=
  match decompose w with
  | .reserved => .evtRsv (overflowFlag w) (gapFlagOf w) (channelCodeOf w) (payloadOf w)
  | .overflowMarker v => .ovf (ignoredOf w) v
  | .eventFields c g t => if c.toNat < 2 then .evtLowch g c t else .evt g c t

/-- The class of a word in slot 0 (41_descriptor.md R160, R162). -/
def decodeDescriptor (w : Word) : Instr :=
  if descValid w then .desc (rawModeOf w) (payloadOf w) else .descBad w

/-- The class of a word in slot 1 (42_header.md R170, R171). -/
def decodeHeader (w : Word) : Instr :=
  if reservedHighBit w then .hdrBad (discardedOf w) else .hdr (discardedOf w)

/-- The class of a word in slot LENGTH: bits do not tell LEN from TRAILER, only whether the body it announces can
be read in full does (30_encoding.md R97, R100). -/
def decodeLength (bodyPresent : Bool) (w : Word) : Instr :=
  if bodyPresent then .len w else .trailer w

/-- The class of a word in its slot, total on all words (30_encoding.md R100). `bodyPresent` is read in slot
LENGTH only. -/
def classify (slot : Slot) (bodyPresent : Bool) (w : Word) : Instr :=
  match slot with
  | .length => decodeLength bodyPresent w
  | .descriptor => decodeDescriptor w
  | .header => decodeHeader w
  | .event => decodeEvent w

/-- Why bytes hold no instruction. -/
inductive DecodeError where
  /-- Fewer than four bytes: a word is "never partially consumed" (20_memory.md R62). Safe: nothing is decoded. -/
  | partialWord
deriving DecidableEq, Repr

/-- What the decoder makes of bytes: the first word's instruction and the bytes after it, or a rejection. -/
inductive Decoded where
  | instr (i : Instr) (rest : List Byte)
  | rejected (why : DecodeError)
deriving DecidableEq, Repr

/-- The decoder, total on any bytes: every word is 32 bits (30_encoding.md R91) and every word has a class in
every slot (R100), so bytes are rejected only where they hold no whole word. -/
def decodeBytes (slot : Slot) (bodyPresent : Bool) : List Byte → Decoded
  | b0 :: b1 :: b2 :: b3 :: rest => .instr (classify slot bodyPresent (leWord b0 b1 b2 b3)) rest
  | _ => .rejected .partialWord

/-! ### The encoder (30_encoding.md R92 to R97, R106) -/

/-- The word of an instruction, from the bit tables of 30_encoding.md R92 to R97. -/
def encode : Instr → Word
  | .len L => L
  | .trailer T => T
  | .desc rawMode timePerBin => 0b11000#5 ++ BitVec.ofBool rawMode ++ 0b01#2 ++ timePerBin
  | .descBad w => w
  | .hdr d => 0#1 ++ d
  | .hdrBad d => 1#1 ++ d
  | .evtRsv o g c p => 1#1 ++ BitVec.ofBool o ++ BitVec.ofBool g ++ c ++ p
  | .ovf ig v => 0b01#2 ++ ig ++ v
  | .evtLowch g c t => 0b00#2 ++ BitVec.ofBool g ++ c ++ t
  | .evt g c t => 0b00#2 ++ BitVec.ofBool g ++ c ++ t

/-- The bytes of an instruction in address order. -/
def encodeBytes (i : Instr) : List Byte := leBytes (encode i)

/-- The answer to "is the body present?" under which a LENGTH word is of the class of `i`
(30_encoding.md R100 rows 1 and 2). -/
def Instr.bodyPresent : Instr → Bool
  | .len _ => true
  | .trailer _ => false
  | .desc _ _ => false
  | .descBad _ => false
  | .hdr _ => false
  | .hdrBad _ => false
  | .evtRsv _ _ _ _ => false
  | .ovf _ _ => false
  | .evtLowch _ _ _ => false
  | .evt _ _ _ => false

/-! ### Words given without a stream (log 7) -/

/-- The slot in which a word given alone is read: slot 0 for a word that passes the descriptor's sync check, the
EVENT slot for any other. DESIGN CHOICE (log 7): a word's bits do not give its slot (30_encoding.md R90); the
descriptor is the one word that carries a sync constant, and event words are what the named block decomposes. -/
def tableSlot (w : Word) : Slot := if descValid w then .descriptor else .event

/-- The word of a table row: `nbits` bits given, the bits above them 0. -/
def tableWord (nbits w : Nat) : Word := BitVec.ofNat 32 (w % 2 ^ nbits)

/-- What the decoder reads from the bytes of a word given alone (log 7); `none` where `nbits` is more than the
32 bits every word has (30_encoding.md R91). -/
def decodeTableWord (nbits w : Nat) : Option Instr :=
  if nbits ≤ 32 then
    match decodeBytes (tableSlot (tableWord nbits w)) false (leBytes (tableWord nbits w)) with
    | .instr i _ => some i
    | .rejected _ => none
  else none

end Sys2Proof
end

