-- ==== Sys2Proof/Machine/State.lean ====
section
/-! DEFINITION. The state of the machine as plain data (10_state.md), its faults and refusals, and the state after
reset (10_state.md R43). -/

namespace Sys2Proof.Machine

/-- The input byte sequence `IN` (20_memory.md R60): byte `IN[a]` is the element at index `a`. The addresses of
`IN` are exactly 0 to N - 1, so the list itself is the canonical form (log 1). -/
abbrev Memory := List Byte

/-- `S.PHASE`, the ten values of 10_state.md R21. -/
inductive Phase where
  | idle | len | body | desc | hdr | evt | commit | check | done | error
deriving DecidableEq, Repr

/-- `S.ERR_SLOT`, the six values of 10_state.md R35. -/
inductive ErrSlot where
  | none | length | descriptor | header | event | trailer
deriving DecidableEq, Repr

/-- The names of the error codes (60_exceptions.md R220). `truncatedBlock` is never raised (R225); its name is
kept so that reading a code back is total on the table. -/
inductive ErrorName where
  | none | invalidDescriptor | invalidEventRecord | trailerMismatch | truncatedBlock
  | lowChannel | shortBlockLength | noLengthWord
deriving DecidableEq, Repr

/-- An event (10_state.md R36). -/
structure Event where
  channel : BitVec 5
  timestamp : BitVec 48
  gap : Bool
deriving DecidableEq, Repr

/-- A block (10_state.md R37). -/
structure Block where
  rawMode : Bool
  timePerBin : BitVec 24
  events : List Event
deriving DecidableEq, Repr

/-- The error record (10_state.md R35). -/
structure ErrorRecord where
  code : BitVec 8
  slot : ErrSlot
  block : Nat
  offset : Nat
  word : Word
  settled : Bool
deriving DecidableEq, Repr

/-- What the host does next (00_scope.md R7, 60_exceptions.md R235, 70_reset_and_hazards.md R264). Reading the
status view or the result changes nothing and is no move. -/
inductive HostMove where
  /-- START with an input (40_stream_framing.md R130). -/
  | start (input : Memory)
  /-- RESET (70_reset_and_hazards.md R261). -/
  | reset
  /-- The host leaves the decoder one step. -/
  | wait
  /-- The host waits until the phase is DONE or ERROR (70_reset_and_hazards.md R264 step 4). -/
  | awaitEnd
deriving DecidableEq, Repr

/-- The whole machine: the record `S` of 10_state.md, the bound input, and the host's moves still to come. -/
structure State where
  /-- The host's moves still to come, the model's own field (log 2). -/
  host : List HostMove
  /-- `IN`, or nothing bound (40_stream_framing.md R130, 70_reset_and_hazards.md R260). -/
  input : Option Memory
  /-- `S.PHASE`, R21. -/
  phase : Phase
  /-- `S.POS`, R22. -/
  pos : Nat
  /-- `S.LAST_LEN`, R23. -/
  lastLen : Option Word
  /-- `S.LEN_OFF`, R24. -/
  lenOff : Nat
  /-- `S.BLK_LEN`, R25. -/
  blkLen : Word
  /-- `S.WIDX`, R26. -/
  widx : Nat
  /-- `S.BLK_BASE`, R27. -/
  blkBase : Nat
  /-- `S.BUF`, R28. -/
  buf : List Word
  /-- `S.OVF`, R29. -/
  ovf : BitVec 24
  /-- `S.RAW`, R30. -/
  raw : Bool
  /-- `S.TPB`, R31. -/
  tpb : BitVec 24
  /-- `S.PEND`, R32. -/
  pend : List Event
  /-- `S.BLOCKS`, R33. -/
  blocks : List Block
  /-- `S.RESIDUAL`, R34. -/
  residual : Nat
  /-- The error record, R35. -/
  err : ErrorRecord
deriving DecidableEq, Repr

/-- Why a step gives no next state. None of these is an error of the stream: those are next states in phase ERROR
(60_exceptions.md R227). Each is safe: the model stops, and no claim about a next state can rest on it. -/
inductive Fault where
  /-- Raised by the step in IDLE, DONE or ERROR when the host does nothing more (and in IDLE when the host waits
  for an end that no decode will bring): the decoder takes no step there (70_reset_and_hazards.md R260,
  60_exceptions.md R231, R233). Safe (log 3). -/
  | quiescent
  /-- Raised by START outside IDLE, which has no move (40_stream_framing.md R130, 92_eei_decisions.md D16). Safe
  (log 4). -/
  | startOutsideIdle
  /-- Raised by a read of `IN` while none is bound; no run reaches it, since only START leaves IDLE. Safe (log 5). -/
  | noInputBound
  /-- Raised by BODY while `S.LAST_LEN` is `none`; no run reaches it (40_stream_framing.md R132). Safe (log 5). -/
  | lengthWordMissing
  /-- Raised by DESC, HDR or EVT while `S.BUF` has no word `S.WIDX`; no run reaches it (10_state.md R44). Safe
  (log 5). -/
  | blockWordMissing
deriving DecidableEq, Repr

/-- Why an instruction is refused. -/
inductive Refusal where
  /-- Raised by `exec` for an instruction without a meaning, by its mnemonic; no arm raises it. Safe. -/
  | notModelled (mnemonic : String)
deriving DecidableEq, Repr

/-- The error record after reset (10_state.md R35, R43). -/
def ErrorRecord.reset : ErrorRecord :=
  { code := 0, slot := .none, block := 0, offset := 0, word := 0, settled := false }

/-- The machine right after reset: every value is the one of 10_state.md R43, nothing is bound
(70_reset_and_hazards.md R260), and the host has no move to come (log 2). -/
def State.reset : State :=
  { host := [], input := none, phase := .idle, pos := 0, lastLen := none, lenOff := 0, blkLen := 0, widx := 0,
    blkBase := 0, buf := [], ovf := 0, raw := false, tpb := 0, pend := [], blocks := [], residual := 0,
    err := ErrorRecord.reset }

end Sys2Proof.Machine
end

