-- ==== Sys2Proof/Machine/Ops.lean ====
section
/-! DEFINITION. The named operations: the input primitives (20_memory.md), the changes of phase, the block's word
cursor, and error entry (60_exceptions.md R227). -/

namespace Sys2Proof.Machine

/-- What a step answers. -/
abbrev StepResult := Host.Outcome State Fault Refusal

/-- `S.BCOUNT = |S.BLOCKS|` (10_state.md R33), computed from the one list that is stored (log 11). -/
def State.bcount (s : State) : Nat := s.blocks.length

/-! ### Input (20_memory.md) -/

/-- The input as (address, byte) pairs. -/
def Memory.cells (m : Memory) : List Host.Cell := m.zipIdx.map fun p => (p.2, p.1)

/-- The canonical form of an input written as cells: the addresses are 0, 1, 2, … in this order, so they rise
strictly, none is missing and an address not listed has no byte (20_memory.md R60). -/
def Memory.wf (cells : List Host.Cell) : Bool := cells.map Prod.fst == List.range cells.length

/-- `IN[a]`; an address at or above N has no byte (20_memory.md R60). -/
def Memory.byteAt (m : Memory) (a : Nat) : Option Byte := m[a]?

/-- `MemRead(addr, n)`, used only where `addr + n <= N` (00_scope.md R13). -/
def Memory.read (m : Memory) (addr n : Nat) : List Byte := (m.drop addr).take n

/-- Whether `n` bytes stand at `addr`: the test of `ReadExact`, on naturals, without wrap
(20_memory.md R63, 40_stream_framing.md R136). -/
def Memory.holds (m : Memory) (addr n : Nat) : Bool := decide (addr + n ≤ m.length)

/-- `Word(addr)` where the four bytes are there, nothing otherwise (20_memory.md R61, R62). -/
def Memory.wordAt (m : Memory) (addr : Nat) : Option Word :=
  if m.holds addr 4 then (wordsOf (m.read addr 4)).head? else none

/-- What `ReadExact` answers. -/
inductive ReadResult where
  | unbound
  | short
  | bytes (bs : List Byte) (s : State)

/-- `ReadExact(k)` (20_memory.md R63): all `k` bytes with `S.POS` moved past them, or SHORT with nothing consumed. -/
def readExact (k : Nat) (s : State) : ReadResult :=
  match s.input with
  | none => .unbound
  | some m => if m.holds s.pos k then .bytes (m.read s.pos k) { s with pos := s.pos + k } else .short

/-! ### Control -/

/-- `goto P` (00_scope.md R14). -/
def State.goto (s : State) (p : Phase) : State := { s with phase := p }

/-- The word cursor after a header or an event word: the next word, or the commit when the block is at its end
(42_header.md R170, 43_event_words.md R189). -/
def advance (s : State) : State :=
  { s with widx := s.widx + 1, phase := if s.widx + 1 < s.blkLen.toNat then .evt else .commit }

/-- The byte offset in `IN` of the block word being decoded (60_exceptions.md R228). -/
def State.wordOffset (s : State) : Nat := s.blkBase + 4 * s.widx

/-! ### Error entry (60_exceptions.md) -/

/-- The numeric codes of 60_exceptions.md R220 (the spec's decision D4). -/
def ErrorName.code : ErrorName → BitVec 8
  | .none => 0x00#8
  | .invalidDescriptor => 0x01#8
  | .invalidEventRecord => 0x02#8
  | .trailerMismatch => 0x03#8
  | .truncatedBlock => 0x04#8
  | .lowChannel => 0x11#8
  | .shortBlockLength => 0x12#8
  | .noLengthWord => 0x13#8

/-- The name of a code, where 60_exceptions.md R220 gives it one. -/
def ErrorName.ofCode (c : BitVec 8) : Option ErrorName :=
  [ErrorName.none, .invalidDescriptor, .invalidEventRecord, .trailerMismatch, .truncatedBlock, .lowChannel,
    .shortBlockLength, .noLengthWord].find? fun e => e.code == c

/-- Whether the source itself defines the outcome (60_exceptions.md R221): INVALID_DESCRIPTOR,
INVALID_EVENT_RECORD in an event slot, and TRAILER_MISMATCH, nothing else. -/
def ErrorName.settled (e : ErrorName) (slot : ErrSlot) : Bool :=
  match e with
  | .invalidDescriptor => true
  | .invalidEventRecord => slot == .event
  | .trailerMismatch => true
  | .none => false
  | .truncatedBlock => false
  | .lowChannel => false
  | .shortBlockLength => false
  | .noLengthWord => false

/-- Error entry, `raise E(slot, offset, word)` (60_exceptions.md R227): the six fields of the record, the pending
events dropped, phase ERROR, and nothing else. -/
def raiseError (e : ErrorName) (slot : ErrSlot) (offset : Nat) (word : Word) (s : State) : State :=
  { s with
    err := { code := e.code, slot := slot, block := s.bcount, offset := offset, word := word,
             settled := e.settled slot }
    pend := []
    phase := .error }

end Sys2Proof.Machine
end

