-- ==== Sys2Proof/Machine/Operands.lean ====
section
/-! DEFINITION. What the operands of an event word compute to: the channel and the macro-time merge
(43_event_words.md R186, R187), and the output form of a timestamp (10_state.md R36). -/

namespace Sys2Proof.Machine

/-- `channel = channelCode - 2`, used for codes 2 to 31 only, so without wrap (43_event_words.md R186). -/
def channelOf (code : BitVec 5) : BitVec 5 := code - 2#5

/-- `timestamp = S.OVF ++ w[23:0] = S.OVF * 2^24 + w[23:0]`, 48 bits, exact (43_event_words.md R187). -/
def timestampOf (ovf time : BitVec 24) : BitVec 48 := ovf ++ time

/-- The event of an event word (43_event_words.md R185). -/
def eventOf (ovf : BitVec 24) (gap : Bool) (code : BitVec 5) (time : BitVec 24) : Event :=
  { channel := channelOf code, timestamp := timestampOf ovf time, gap := gap }

/-- The timestamp as presented on the 64-bit output, zero-extended (10_state.md R36, 92_eei_decisions.md D13). -/
def Event.timestamp64 (e : Event) : BitVec 64 := e.timestamp.zeroExtend 64

end Sys2Proof.Machine
end

