-- ==== Sys2Proof/Machine/Flags.lean ====
section
/-! DEFINITION. The Boolean conditions the decoder or the host reads. There are no condition codes
(10_state.md R38): nothing here is a side effect of an operation. -/

namespace Sys2Proof.Machine

/-- The phases in which the decoder takes no step (60_exceptions.md R240). -/
def Phase.quiescent : Phase → Bool
  | .idle => true
  | .done => true
  | .error => true
  | .len => false
  | .body => false
  | .desc => false
  | .hdr => false
  | .evt => false
  | .commit => false
  | .check => false

/-- The end of a run (70_reset_and_hazards.md R270), which a realisation may drive onto a level output
(60_exceptions.md R234). -/
def Phase.ended : Phase → Bool
  | .done => true
  | .error => true
  | .idle => false
  | .len => false
  | .body => false
  | .desc => false
  | .hdr => false
  | .evt => false
  | .commit => false
  | .check => false

/-- The source's `ReadingBlocks`; the other phases but IDLE are `Terminated` (10_state.md R21,
40_stream_framing.md R140). -/
def Phase.readingBlocks : Phase → Bool
  | .len => true
  | .body => true
  | .desc => true
  | .hdr => true
  | .evt => true
  | .commit => true
  | .idle => false
  | .check => false
  | .done => false
  | .error => false

/-- The phases in which a block's words are decoded or committed (10_state.md R44 item 3). -/
def Phase.inBlock : Phase → Bool
  | .desc => true
  | .hdr => true
  | .evt => true
  | .commit => true
  | .idle => false
  | .len => false
  | .body => false
  | .check => false
  | .done => false
  | .error => false

/-- Completion as the host sees it (60_exceptions.md R234). -/
def State.terminatedLevel (s : State) : Bool := s.phase.ended

end Sys2Proof.Machine
end

