-- ==== Sys2Proof/Machine/Descriptor.lean ====
section
/-! DEFINITION. The descriptor sync validator (41_descriptor.md). -/

namespace Sys2Proof.Machine

/-- DESC: latch `rawMode` and `timePerBin` and go on to the header (41_descriptor.md R160). -/
def execDesc (rawMode : Bool) (timePerBin : BitVec 24) (s : State) : StepResult :=
  .next { s with raw := rawMode, tpb := timePerBin, widx := s.widx + 1, phase := .hdr }

/-- DESC_BAD: INVALID_DESCRIPTOR (41_descriptor.md R162). -/
def execDescBad (word : Word) (s : State) : StepResult :=
  .next (raiseError .invalidDescriptor .descriptor s.wordOffset word s)

end Sys2Proof.Machine
end

