-- ==== Sys2Proof/Machine/EventWord.lean ====
section
/-! DEFINITION. The event words: reserved bit, overflow counter, events, reserved channel codes, and the block
commit (43_event_words.md). -/

namespace Sys2Proof.Machine

/-- EVT_RSV: INVALID_EVENT_RECORD in slot EVENT (43_event_words.md R181). -/
def execEvtRsv (overflow gap : Bool) (code : BitVec 5) (payload : BitVec 24) (s : State) : StepResult :=
  .next (raiseError .invalidEventRecord .event s.wordOffset (encode (.evtRsv overflow gap code payload)) s)

/-- OVF: the counter is replaced by the payload; no event (43_event_words.md R182, R183). -/
def execOvf (_ignored : BitVec 6) (payload : BitVec 24) (s : State) : StepResult :=
  .next (advance { s with ovf := payload })

/-- EVT_LOWCH: LOW_CHANNEL (43_event_words.md R191). -/
def execEvtLowch (gap : Bool) (code : BitVec 5) (time : BitVec 24) (s : State) : StepResult :=
  .next (raiseError .lowChannel .event s.wordOffset (encode (.evtLowch gap code time)) s)

/-- EVT: one event at the end of the pending list (43_event_words.md R185). -/
def execEvt (gap : Bool) (code : BitVec 5) (time : BitVec 24) (s : State) : StepResult :=
  .next (advance { s with pend := s.pend ++ [eventOf s.ovf gap code time] })

/-- The COMMIT step (43_event_words.md R190). -/
def commitStep (s : State) : State :=
  { s with
    blocks := s.blocks ++ [{ rawMode := s.raw, timePerBin := s.tpb, events := s.pend }]
    pend := []
    phase := .len }

end Sys2Proof.Machine
end

