-- ==== Sys2Proof/Machine/Framing.lean ====
section
/-! DEFINITION. The Framing Unit: the steps LEN, BODY and CHECK (40_stream_framing.md), and with them the meanings
of the two classes of slot LENGTH. -/

namespace Sys2Proof.Machine

/-- The stream ends: a short read goes on to the trailer check and is no error (40_stream_framing.md R135,
60_exceptions.md R242). -/
def endOfStream (s : State) : State := s.goto .check

/-- The LEN step with the length word `w` (40_stream_framing.md R131). -/
def lenStep (w : Word) (s : State) : StepResult :=
  match readExact 4 s with
  | .unbound => .fault .noInputBound
  | .short => .next (endOfStream s)
  | .bytes _ s1 => .next { s1 with lastLen := some w, lenOff := s.pos, phase := .body }

/-- The state after a whole body of `L >= 2` words is fetched (40_stream_framing.md R132): `s1` is the state after
the read and `base` the cursor before it. -/
def openBlock (L : Word) (base : Nat) (bytes : List Byte) (s1 : State) : State :=
  { s1 with blkLen := L, blkBase := base, buf := wordsOf bytes, widx := 0, ovf := 0, pend := [], phase := .desc }

/-- The BODY step for the length `L` (40_stream_framing.md R132, R133): the short-read test comes before the
`L < 2` test. -/
def bodyStep (L : Word) (s : State) : StepResult :=
  match readExact (4 * L.toNat) s with
  | .unbound => .fault .noInputBound
  | .short => .next (endOfStream s)
  | .bytes bytes s1 =>
    if L.toNat < 2 then .next (raiseError .shortBlockLength .length s.lenOff L s1)
    else .next (openBlock L s.pos bytes s1)

/-- The CHECK step with the trailer, if any length word was ever read (40_stream_framing.md R134). -/
def checkStep (trailer : Option Word) (s : State) : StepResult :=
  match s.input with
  | none => .fault .noInputBound
  | some m =>
    let s1 := { s with residual := m.length - s.pos }
    match trailer with
    | none => .next (raiseError .noLengthWord .length 0 0 s1)
    | some T =>
      if T.toNat = s.bcount then .next (s1.goto .done)
      else .next (raiseError .trailerMismatch .trailer s.lenOff T s1)

/-- LEN: recorded by the LEN step, its body fetched by the BODY step (30_encoding.md R97, R100; log 6). -/
def execLen (L : Word) (s : State) : StepResult :=
  if s.phase = .body then bodyStep L s else lenStep L s

/-- TRAILER: recorded by the LEN step, its short body found by the BODY step, compared by the CHECK step
(30_encoding.md R97, R100; log 6). -/
def execTrailer (T : Word) (s : State) : StepResult :=
  if s.phase = .len then lenStep T s
  else if s.phase = .body then bodyStep T s
  else checkStep (some T) s

end Sys2Proof.Machine
end

