-- ==== Sys2Proof/Machine/Header.lean ====
section
/-! DEFINITION. The header word (42_header.md). -/

namespace Sys2Proof.Machine

/-- HDR: discarded; on to the event words, or to the commit when there are none (42_header.md R170, R172). -/
def execHdr (_discarded : BitVec 31) (s : State) : StepResult := .next (advance s)

/-- HDR_BAD: INVALID_EVENT_RECORD in slot HEADER (42_header.md R171). -/
def execHdrBad (discarded : BitVec 31) (s : State) : StepResult :=
  .next (raiseError .invalidEventRecord .header s.wordOffset (encode (.hdrBad discarded)) s)

end Sys2Proof.Machine
end

