-- ==== Sys2Proof/Machine/Dispatch.lean ====
section
/-! DEFINITION. One arm per word class of spec/opcode_table.json. -/

namespace Sys2Proof.Machine

def exec (i : Instr) (s : State) : Host.Outcome State Fault Refusal :=
  match i with
  | .len L => Sys2Proof.Machine.execLen L s
  | .trailer T => Sys2Proof.Machine.execTrailer T s
  | .desc rawMode timePerBin => Sys2Proof.Machine.execDesc rawMode timePerBin s
  | .descBad word => Sys2Proof.Machine.execDescBad word s
  | .hdr discarded => Sys2Proof.Machine.execHdr discarded s
  | .hdrBad discarded => Sys2Proof.Machine.execHdrBad discarded s
  | .evtRsv overflow gap code payload => Sys2Proof.Machine.execEvtRsv overflow gap code payload s
  | .ovf ignored payload => Sys2Proof.Machine.execOvf ignored payload s
  | .evtLowch gap code time => Sys2Proof.Machine.execEvtLowch gap code time s
  | .evt gap code time => Sys2Proof.Machine.execEvt gap code time s

end Sys2Proof.Machine
end

