-- ==== Sys2Proof/Machine/Fetch.lean ====
section
/-! DEFINITION. Which word a step works on, the decoder's step, and a word placed where it is fetched next. -/

namespace Sys2Proof.Machine

/-- What the decoder's next step works on. -/
inductive Fetched where
  /-- A word of the stream, classified in its slot. -/
  | instr (i : Instr)
  /-- LEN with fewer than four bytes left (40_stream_framing.md R131). -/
  | shortLength
  /-- CHECK with no length word ever read (40_stream_framing.md R134). -/
  | noTrailer
  /-- COMMIT, which reads no word (43_event_words.md R190). -/
  | blockEnd
  /-- No step. -/
  | stop (f : Fault)
deriving DecidableEq, Repr

/-- The class of the length word `w` whose body would start at `base` (30_encoding.md R100 rows 1 and 2). -/
def lengthInstr (m : Memory) (base : Nat) (w : Word) : Instr :=
  classify .length (m.holds base (4 * w.toNat)) w

/-- The class of the block word `S.BUF[S.WIDX]` in the given slot. -/
def blockInstr (slot : Slot) (s : State) : Fetched :=
  match s.buf[s.widx]? with
  | none => .stop .blockWordMissing
  | some w => .instr (classify slot false w)

/-- The class of the length word the LEN step reads at `S.POS` (40_stream_framing.md R131). -/
def fetchLength (s : State) : Fetched :=
  match s.input with
  | none => .stop .noInputBound
  | some m =>
    match m.wordAt s.pos with
    | none => .shortLength
    | some w => .instr (lengthInstr m (s.pos + 4) w)

/-- The class of the length word the BODY step works on, `S.LAST_LEN` (40_stream_framing.md R132). -/
def fetchLastLength (s : State) : Fetched :=
  match s.input with
  | none => .stop .noInputBound
  | some m =>
    match s.lastLen with
    | none => .stop .lengthWordMissing
    | some w => .instr (lengthInstr m s.pos w)

/-- The trailer the CHECK step works on (30_encoding.md R97, 40_stream_framing.md R134). -/
def fetchTrailer (s : State) : Fetched :=
  match s.lastLen with
  | none => .noTrailer
  | some T => .instr (classify .length false T)

/-- The slot is known from the state alone (30_encoding.md R90; the table of 10_state.md R21). -/
def fetch (s : State) : Fetched :=
  match s.phase with
  | .idle => .stop .quiescent
  | .len => fetchLength s
  | .body => fetchLastLength s
  | .desc => blockInstr .descriptor s
  | .hdr => blockInstr .header s
  | .evt => blockInstr .event s
  | .commit => .blockEnd
  | .check => fetchTrailer s
  | .done => .stop .quiescent
  | .error => .stop .quiescent

/-- One step of the decoder: the step its phase names (10_state.md R21). -/
def decoderStep (s : State) : StepResult :=
  match fetch s with
  | .instr i => exec i s
  | .shortLength => .next (endOfStream s)
  | .noTrailer => checkStep none s
  | .blockEnd => .next (commitStep s)
  | .stop f => .fault f

/-! ### A word placed where it is fetched next (log 7) -/

/-- The conventional header (42_header.md R170). -/
def conventionalHeader : Word := 0x40000000#32

/-- The descriptor with raw mode off and `timePerBin` 0. -/
def plainDescriptor : Word := 0xC1000000#32

/-- The bytes of a stream of words. -/
def streamOf (ws : List Word) : Memory := ws.flatMap leBytes

/-- `s` inside the only block of the stream `ws.length, ws…`, about to decode word `widx` of it. Only what fetches
that word and gives its place in the stream is set. DESIGN CHOICE (log 7): `S.OVF`, `S.PEND`, `S.RAW`, `S.TPB`,
`S.BLOCKS`, `S.RESIDUAL` and the error record are those of `s`, also where START or the steps before the word would
have written them; the spec knows no word without its stream. -/
def insideBlock (p : Phase) (widx : Nat) (ws : List Word) (s : State) : State :=
  { s with
    host := []
    input := some (streamOf (BitVec.ofNat 32 ws.length :: ws))
    phase := p
    pos := 4 + 4 * ws.length
    lastLen := some (BitVec.ofNat 32 ws.length)
    lenOff := 0
    blkLen := BitVec.ofNat 32 ws.length
    blkBase := 4
    buf := ws
    widx := widx }

/-- `s` with the word `w` as the next one the step decodes, in the slot `tableSlot w` (log 7). -/
def placeWord (w : Word) (s : State) : State :=
  match tableSlot w with
  | .length => insideBlock .desc 0 [w, conventionalHeader] s
  | .descriptor => insideBlock .desc 0 [w, conventionalHeader] s
  | .header => insideBlock .hdr 1 [plainDescriptor, w] s
  | .event => insideBlock .evt 2 [plainDescriptor, conventionalHeader, w] s

end Sys2Proof.Machine
end

