-- ==== Sys2Proof/Machine/HostInterface.lean ====
section
/-! DEFINITION. The host's commands, what it can read, and which agent moves next (00_scope.md R7,
60_exceptions.md R229, R235, 70_reset_and_hazards.md R264, R265). -/

namespace Sys2Proof.Machine

/-- START (40_stream_framing.md R130), accepted in IDLE only. -/
def startCommand (input : Memory) (s : State) : StepResult :=
  if s.phase = .idle then
    .next { s with
      input := some input
      pos := 0
      lastLen := none
      lenOff := 0
      blocks := []
      residual := 0
      phase := .len }
  else .fault .startOutsideIdle

/-- RESET (70_reset_and_hazards.md R261), accepted in every phase: the reset state; the moves the host has still
to make are the host's, not the decoder's, and stay. -/
def resetCommand (s : State) : State := { State.reset with host := s.host }

/-- The host lets time pass: the decoder takes a step, or none in a quiescent phase (60_exceptions.md R240). -/
def waitMove (s : State) : StepResult := if s.phase.quiescent then .next s else decoderStep s

/-- The machine's next move: the host's, if it has one to make, else the decoder's (log 2). -/
def moveNext (s : State) : StepResult :=
  match s.host with
  | [] => decoderStep s
  | .start input :: rest => startCommand input { s with host := rest }
  | .reset :: rest => .next (resetCommand { s with host := rest })
  | .wait :: rest => waitMove { s with host := rest }
  | .awaitEnd :: rest => if s.phase.ended then .next { s with host := rest } else decoderStep s

/-- The status view, read-only (10_state.md R40). -/
structure StatusView where
  phase : Phase
  pos : Nat
  bcount : Nat
  blocks : List Block
  residual : Nat
  err : ErrorRecord
deriving DecidableEq, Repr

/-- What the host reads at any time (10_state.md R40). -/
def State.statusView (s : State) : StatusView :=
  { phase := s.phase, pos := s.pos, bcount := s.bcount, blocks := s.blocks, residual := s.residual, err := s.err }

/-- The result (60_exceptions.md R229). -/
inductive Result where
  | ok (blocks : List Block) (residual : Nat)
  | err (record : ErrorRecord)
  | noResultYet
deriving DecidableEq, Repr

/-- The result the host reads (60_exceptions.md R229): on an error no block is delivered. -/
def State.result (s : State) : Result :=
  if s.phase = .done then .ok s.blocks s.residual
  else if s.phase = .error then .err s.err
  else .noResultYet

end Sys2Proof.Machine
end

