-- ==== Sys2Proof/Machine/Step.lean ====
section
/-! DEFINITION. The step of the machine, and a word placed where the step fetches its next one. -/

namespace Sys2Proof.Machine

/-- One step: the host's next move, or the decoder's step when the host has none to make. -/
def step : State → Host.Outcome State Fault Refusal := moveNext

/-- `s` with the instruction of the table word `w` as the one its very next step runs (log 7). -/
def State.withFetchWord (s : State) (nbits w : Nat) : State := placeWord (tableWord nbits w) s

end Sys2Proof.Machine
end

