-- ==== Sys2Proof/Safety.lean ====
section
/-! DEFINITION. The terms claims use: the invariants of 10_state.md R44, a run and its end, the capacity of a
realisation, and the source's algorithm on natural numbers as a reference for the machine. -/

namespace Sys2Proof

/-! ### The classification table (30_encoding.md R100) -/

/-- A row of the table of 30_encoding.md R100. -/
structure TableRow where
  order : Nat
  slot : Slot
  mask : Word
  pattern : Word
deriving DecidableEq, Repr

/-- The ten rows of 30_encoding.md R100, in order. -/
def tableRows : List TableRow :=
  [{ order := 1, slot := .length, mask := 0x00000000#32, pattern := 0x00000000#32 },
   { order := 2, slot := .length, mask := 0x00000000#32, pattern := 0x00000000#32 },
   { order := 3, slot := .descriptor, mask := 0xFB000000#32, pattern := 0xC1000000#32 },
   { order := 4, slot := .descriptor, mask := 0x00000000#32, pattern := 0x00000000#32 },
   { order := 5, slot := .header, mask := 0x80000000#32, pattern := 0x00000000#32 },
   { order := 6, slot := .header, mask := 0x80000000#32, pattern := 0x80000000#32 },
   { order := 7, slot := .event, mask := 0x80000000#32, pattern := 0x80000000#32 },
   { order := 8, slot := .event, mask := 0xC0000000#32, pattern := 0x40000000#32 },
   { order := 9, slot := .event, mask := 0xDE000000#32, pattern := 0x00000000#32 },
   { order := 10, slot := .event, mask := 0xC0000000#32, pattern := 0x00000000#32 }]

/-- The row of an instruction. -/
def Instr.tableOrder : Instr → Nat
  | .len _ => 1
  | .trailer _ => 2
  | .desc _ _ => 3
  | .descBad _ => 4
  | .hdr _ => 5
  | .hdrBad _ => 6
  | .evtRsv _ _ _ _ => 7
  | .ovf _ _ => 8
  | .evtLowch _ _ _ => 9
  | .evt _ _ _ => 10

/-- The first row of the table whose condition holds for a word in its slot; row 1 asks in addition that the body
the word announces be present in full (30_encoding.md R97, R100). -/
def firstTableRow (slot : Slot) (bodyPresent : Bool) (w : Word) : Option Nat :=
  (tableRows.find? fun r =>
    r.slot == slot && (w &&& r.mask) == r.pattern && (r.order != 1 || bodyPresent)).map TableRow.order

end Sys2Proof

namespace Sys2Proof.Machine

/-! ### Invariants (10_state.md R44) -/

/-- Whether an event word is an overflow word (30_encoding.md R96): bit 31 clear, bit 30 set. -/
def isOverflowWord (w : Word) : Bool := w.toNat / 2 ^ 30 % 4 == 1

/-- The number `k` of overflow words among `S.BUF[2 .. S.WIDX - 1]` (10_state.md R44 item 5). -/
def State.overflowWords (s : State) : Nat := ((s.buf.take s.widx).drop 2).countP isOverflowWord

/-- What holds in every state a run reaches: 10_state.md R44, what its items take for granted (an input is bound
outside IDLE, the length word is the one at `S.LEN_OFF`, the block's words are those of the input), and the ranges of
`S.WIDX` and of channels, and what DONE means. -/
structure State.Inv (s : State) : Prop where
  /-- R44 item 1, R62. -/
  aligned : s.pos % 4 = 0
  /-- R44 item 1. -/
  inBounds : ∀ m, s.input = some m → s.pos ≤ m.length
  /-- R130, R260: only START leaves IDLE. -/
  bound : s.phase ≠ .idle → s.input.isSome
  /-- R23, R24. -/
  lengthWord : ∀ m L, s.input = some m → s.lastLen = some L → m.wordAt s.lenOff = some L
  /-- R132: BODY always finds a length word, the one just read. -/
  bodyLength : s.phase = .body → s.lastLen.isSome ∧ s.lenOff + 4 = s.pos
  /-- R44 item 3. -/
  block : s.phase.inBlock = true →
    2 ≤ s.blkLen.toNat ∧ s.buf.length = s.blkLen.toNat ∧ s.blkBase + 4 * s.blkLen.toNat = s.pos ∧
      s.lastLen = some s.blkLen
  /-- R28, R64. -/
  blockWords : s.phase.inBlock = true →
    ∀ m, s.input = some m → ∀ i, i < s.buf.length → m.wordAt (s.blkBase + 4 * i) = s.buf[i]?
  /-- R44 item 4. -/
  atDesc : s.phase = .desc → s.widx = 0
  /-- R44 item 4. -/
  atHdr : s.phase = .hdr → s.widx = 1
  /-- R44 item 4. -/
  atEvt : s.phase = .evt → 2 ≤ s.widx ∧ s.widx < s.blkLen.toNat
  /-- R44 item 4. -/
  atCommit : s.phase = .commit → s.widx = s.blkLen.toNat
  /-- R132: nothing is pending before the first event word. -/
  nothingPending : s.phase = .desc ∨ s.phase = .hdr → s.pend = []
  /-- R44 item 5. -/
  pendCount : s.phase = .evt ∨ s.phase = .commit → s.pend.length + s.overflowWords = s.widx - 2
  /-- R44 item 6. -/
  errorCode : s.err.code ≠ 0 ↔ s.phase = .error
  /-- R26. -/
  widxBound : s.widx ≤ s.blkLen.toNat
  /-- R36, R186: every event pending or committed has a channel from 0 to 29. -/
  channels : (∀ e ∈ s.pend, e.channel.toNat ≤ 29) ∧ ∀ b ∈ s.blocks, ∀ e ∈ b.events, e.channel.toNat ≤ 29
  /-- R34, R139: a decode that succeeded left the unread bytes counted and as many blocks as its trailer says. -/
  atDone : s.phase = .done → ∀ m, s.input = some m →
    s.residual = m.length - s.pos ∧ ∃ T : Word, s.lastLen = some T ∧ s.blocks.length = T.toNat

/-- A realisation that holds at most `Config.maxEventsPerBlock` events is specified for states within its capacity
only (92_eei_decisions.md D23); the machine itself is unbounded (log 8). -/
def State.withinCapacity (s : State) : Prop := s.pend.length ≤ Config.maxEventsPerBlock

/-- An outcome the source itself defines: not an unsettled error (60_exceptions.md R221, log 10). -/
def State.outcomeSettled (s : State) : Prop := s.phase = .error → s.err.settled = true

/-! ### Runs (70_reset_and_hazards.md R264, R270) -/

/-- The machine after reset with a host that starts a decode of `m` and then does nothing more. -/
def State.decoding (m : Memory) : State := { State.reset with host := [.start m] }

/-- `k` steps from `s` lead to `t`. -/
def State.runsTo (k : Nat) (s t : State) : Prop := core.run k s = .next t

/-- The input bytes not read yet. -/
def State.unread (s : State) : Nat :=
  match s.input with
  | none => 0
  | some m => m.length - s.pos

/-- A bound on the decoder's steps up to DONE or ERROR, with no more host moves: the counting of
70_reset_and_hazards.md R271. A word of the block takes a step, the commit takes one, and from LEN there are at most
half as many steps as unread bytes, and three. -/
def State.stepsLeft (s : State) : Nat :=
  match s.phase with
  | .idle => 0
  | .len => s.unread / 2 + 3
  | .body => s.unread / 2 + 4
  | .desc => s.blkLen.toNat - s.widx + s.unread / 2 + 4
  | .hdr => s.blkLen.toNat - s.widx + s.unread / 2 + 4
  | .evt => s.blkLen.toNat - s.widx + s.unread / 2 + 4
  | .commit => s.unread / 2 + 4
  | .check => 1
  | .done => 0
  | .error => 0

/-- The status view after `k` steps, where the machine takes that many. -/
def State.viewAfter (k : Nat) (s : State) : Option StatusView :=
  match core.run k s with
  | .next t => some t.statusView
  | .fault _ => none
  | .refused _ => none

/-- `s` with every `rawMode` hidden, in the latch and in the committed blocks. -/
def State.eraseRaw (s : State) : State :=
  { s with raw := false, blocks := s.blocks.map fun b => { b with rawMode := false } }

/-- The moves between phases that the decoder makes (the phase sequence of 10_state.md R21 with the branches of
40_stream_framing.md R131 to R134, 41_descriptor.md R160, 42_header.md R170 and 43_event_words.md R180 to R190). -/
def phaseMoves : List (Phase × Phase) :=
  [(.len, .body), (.len, .check), (.body, .desc), (.body, .check), (.body, .error), (.desc, .hdr), (.desc, .error),
   (.hdr, .evt), (.hdr, .commit), (.hdr, .error), (.evt, .evt), (.evt, .commit), (.evt, .error), (.commit, .len),
   (.check, .done), (.check, .error)]

/-! ### The source's algorithm on natural numbers (40_stream_framing.md, 43_event_words.md) -/

/-- An event as the source gives it: channel, timestamp, gap. -/
def Event.toSource (e : Event) : Nat × Nat × Bool := (e.channel.toNat, e.timestamp.toNat, e.gap)

/-- A block as the source gives it: raw mode, time per bin, events. -/
def Block.toSource (b : Block) : Bool × Nat × List (Nat × Nat × Bool) :=
  (b.rawMode, b.timePerBin.toNat, b.events.map Event.toSource)

/-- The source's §4.2 step 3 (quoted at the head of 43_event_words.md) on words as numbers, threading the overflow
counter; `none` on a reserved bit (43_event_words.md R181) and, by the spec's own decision D7 (R191, log 10), on channel
codes 0 and 1, for which the source's text gives no outcome. -/
def sourceEvents (counter : Nat) : List Nat → Option (List (Nat × Nat × Bool))
  | [] => some []
  | w :: ws =>
    if w / 2 ^ 31 % 2 = 1 then none
    else if w / 2 ^ 30 % 2 = 1 then sourceEvents (w % 2 ^ 24) ws
    else if w / 2 ^ 24 % 32 < 2 then none
    else (sourceEvents counter ws).map fun es =>
      (w / 2 ^ 24 % 32 - 2, counter * 2 ^ 24 + w % 2 ^ 24, w / 2 ^ 29 % 2 == 1) :: es

/-- The source's §4.2: descriptor, header, event words; `none` on a bad sync byte (41_descriptor.md R162), where the event
words have none, and by the spec's own decisions (log 10) on a header with bit 31 set (D6, 42_header.md R171) and on
fewer than two words (D8, 40_stream_framing.md R133). -/
def sourceBlock : List Nat → Option (Bool × Nat × List (Nat × Nat × Bool))
  | d :: h :: ws =>
    if d / 2 ^ 24 = 0xC1 ∨ d / 2 ^ 24 = 0xC5 then
      if h / 2 ^ 31 % 2 = 1 then none
      else (sourceEvents 0 ws).map fun es => (d / 2 ^ 26 % 2 == 1, d % 2 ^ 24, es)
    else none
  | _ => none

/-- The little-endian word of the first four bytes, as a number (20_memory.md R61), and the bytes after it. -/
def sourceWord : List Nat → Option (Nat × List Nat)
  | b0 :: b1 :: b2 :: b3 :: rest => some (b0 + b1 * 2 ^ 8 + b2 * 2 ^ 16 + b3 * 2 ^ 24, rest)
  | _ => none

/-- `n` words off the front, and the bytes after them; `none` where fewer are there. -/
def sourceWords : Nat → List Nat → Option (List Nat × List Nat)
  | 0, bytes => some ([], bytes)
  | n + 1, bytes =>
    match sourceWord bytes with
    | none => none
    | some (w, rest) => (sourceWords n rest).map fun r => (w :: r.1, r.2)

/-- The source's §4.1 (quoted at the head of 40_stream_framing.md) on bytes as numbers: blocks decoded so far, the
last length word read. The first argument bounds the number of blocks. `none` on every error, the input without a
length word among them (the spec's own decision D9, log 10); on success the blocks and the number of bytes left unread
(its decision D11). -/
def sourceStream (fuel : Nat) (bytes : List Nat) (lastLen : Option Nat)
    (blocks : List (Bool × Nat × List (Nat × Nat × Bool))) :
    Option (List (Bool × Nat × List (Nat × Nat × Bool)) × Nat) :=
  match fuel with
  | 0 => none
  | fuel + 1 =>
    match sourceWord bytes with
    | none => if lastLen = some blocks.length then some (blocks, bytes.length) else none
    | some (L, body) =>
      if 4 * L ≤ body.length then
        match sourceWords L body with
        | none => none
        | some (ws, rest) =>
          match sourceBlock ws with
          | none => none
          | some b => sourceStream fuel rest (some L) (blocks ++ [b])
      else if L = blocks.length then some (blocks, body.length) else none

/-- The source's `decode` (40_stream_framing.md): the decoded blocks and the unread bytes, or an error. Each block
takes at least twelve bytes, so a fuel of the number of bytes plus one is never used up. -/
def sourceDecode (m : Memory) : Option (List (Bool × Nat × List (Nat × Nat × Bool)) × Nat) :=
  sourceStream (m.length + 1) (m.map BitVec.toNat) none []

end Sys2Proof.Machine
end

