-- ==== Sys2Proof/Certificates/Slice0/Obligations.lean ====
section
/-! DEFINITION. The statements for the provers. Each docstring names the rule of spec/ it formalises; where a clause
rests on a choice of the model it names the log entry. -/

open Sys2Proof Sys2Proof.Machine

/-! ### Encoding and classification (30_encoding.md) -/

/-- Words written out from the bit tables of 30_encoding.md (and named in 95_test_vectors.md) decode to the class
and the operands those tables give them, one or more for each of the ten rows. -/
def Obligations.WrittenWordsDecodeToTheirClasses : Prop :=
  classify .length true 0x00000003#32 = .len 3#32 ∧
  classify .length false 0x00000004#32 = .trailer 4#32 ∧
  classify .descriptor false 0xC1028302#32 = .desc false 0x028302#24 ∧
  classify .descriptor false 0xC5FFFFFF#32 = .desc true 0xFFFFFF#24 ∧
  classify .descriptor false 0xC3000000#32 = .descBad 0xC3000000#32 ∧
  classify .header false 0x40000000#32 = .hdr 0x40000000#31 ∧
  classify .header false 0x80000000#32 = .hdrBad 0#31 ∧
  classify .event false 0x88000000#32 = .evtRsv false false 8#5 0#24 ∧
  classify .event false 0xC0000001#32 = .evtRsv true false 0#5 1#24 ∧
  classify .event false 0x7F000002#32 = .ovf 0x3F#6 2#24 ∧
  classify .event false 0x21000005#32 = .evtLowch true 1#5 5#24 ∧
  classify .event false 0x3F123456#32 = .evt true 31#5 0x123456#24

/-- Decoding the bytes of a well-formed instruction, in its slot, gives the instruction back with every operand at
every value, and leaves the bytes after it. The bytes are in the order of R61 (log 12). -/
def Obligations.DecodeOfEncodeIsTheInstruction : Prop :=
  ∀ (i : Instr) (rest : List Byte), i.wellFormed = true →
    decodeBytes i.slot i.bodyPresent (encodeBytes i ++ rest) = .instr i rest

/-- Every word has a class in every slot (R100: "the classification is total"), the class is a well-formed
instruction, and encoding it gives the word back: no bit of any word is dropped. -/
def Obligations.EncodeOfDecodeIsTheWord : Prop :=
  ∀ (slot : Slot) (bodyPresent : Bool) (w : Word),
    (classify slot bodyPresent w).wellFormed = true ∧ encode (classify slot bodyPresent w) = w

/-- R100: the class of a word in its slot is the first row of the table whose mask and pattern it satisfies (row 1
where the announced body is present, else row 2). -/
def Obligations.ClassIsTheFirstTableRow : Prop :=
  ∀ (slot : Slot) (bodyPresent : Bool) (w : Word),
    firstTableRow slot bodyPresent w = some (classify slot bodyPresent w).tableOrder

/-- R103: bits 30:0 of an accepted header (bit 31 clear) and bits 29:24 of an overflow word never change the outcome.
A header with bit 31 set is an error whatever its bits 30:0 are (the spec's own decision D6, log 10); they reach the
recorded word and nothing else. That the word is recorded at all is the spec's decision D5. -/
def Obligations.DontCareBitsChangeNothing : Prop :=
  ∀ (w w' : Word) (s : State),
    (w.toNat < 2 ^ 31 → w'.toNat < 2 ^ 31 →
      exec (classify .header false w) s = exec (classify .header false w') s) ∧
    (2 ^ 31 ≤ w.toNat → 2 ^ 31 ≤ w'.toNat →
      ∃ t : State, t.phase = .error ∧
        exec (classify .header false w) s = .next { t with err := { t.err with word := w } } ∧
        exec (classify .header false w') s = .next { t with err := { t.err with word := w' } }) ∧
    (w.toNat / 2 ^ 30 = 1 → w'.toNat / 2 ^ 30 = 1 → w.toNat % 2 ^ 24 = w'.toNat % 2 ^ 24 →
      exec (classify .event false w) s = exec (classify .event false w') s)

/-! ### Input (20_memory.md) -/

/-- R61: the word at `a` is `IN[a] + IN[a+1] * 2^8 + IN[a+2] * 2^16 + IN[a+3] * 2^24` (the spec's own
general-knowledge expansion of "little-endian", log 12); where fewer than four bytes stand at `a` there is no word
(R62). -/
def Obligations.WordsAreLittleEndian : Prop :=
  ∀ (m : Memory) (a : Nat),
    (∀ b0 b1 b2 b3 : Byte, m[a]? = some b0 → m[a + 1]? = some b1 → m[a + 2]? = some b2 → m[a + 3]? = some b3 →
      ∃ w, m.wordAt a = some w ∧
        w.toNat = b0.toNat + b1.toNat * 2 ^ 8 + b2.toNat * 2 ^ 16 + b3.toNat * 2 ^ 24) ∧
    (m.length < a + 4 → m.wordAt a = none)

/-- R63: `ReadExact(k)` returns all `k` bytes at the cursor and moves it past them, or is SHORT and consumes
nothing, which is the spec's own decision D11; the test is exact on naturals (R136, decision D14, log 9). -/
def Obligations.ReadsAreAllOrNothing : Prop :=
  ∀ (k : Nat) (s : State) (m : Memory), s.input = some m →
    (s.pos + k ≤ m.length →
      ∃ bs, readExact k s = .bytes bs { s with pos := s.pos + k } ∧ bs.length = k ∧
        ∀ i, i < k → bs[i]? = m[s.pos + i]?) ∧
    (m.length < s.pos + k → readExact k s = .short)

/-! ### Whose step it is -/

/-- A step with no host move pending runs the word its phase is about: the length word at the cursor in LEN, the last
length word in BODY and in CHECK, the block word at `S.WIDX` in DESC, HDR and EVT, each as its slot classifies it
(R90, R97, R100; the division of a LENGTH word's work over the phases is log 6). The host's list of moves is log 2. -/
def Obligations.StepRunsTheFetchedWord : Prop :=
  ∀ s : State, s.host = [] →
    (∀ m w, s.phase = .len → s.input = some m → m.wordAt s.pos = some w →
      step s = exec (classify .length (decide (s.pos + 4 + 4 * w.toNat ≤ m.length)) w) s) ∧
    (∀ m w, s.phase = .body → s.input = some m → s.lastLen = some w →
      step s = exec (classify .length (decide (s.pos + 4 * w.toNat ≤ m.length)) w) s) ∧
    (∀ w, s.phase = .desc → s.buf[s.widx]? = some w → step s = exec (classify .descriptor false w) s) ∧
    (∀ w, s.phase = .hdr → s.buf[s.widx]? = some w → step s = exec (classify .header false w) s) ∧
    (∀ w, s.phase = .evt → s.buf[s.widx]? = some w → step s = exec (classify .event false w) s) ∧
    (∀ T, s.phase = .check → s.lastLen = some T → step s = exec (.trailer T) s)

/-- The word of an opcode-table row given alone is what the very next step runs, whatever the state was. The slot
such a word is read in, and that the fields around it (OVF and PEND among them) are those of that state, are the model's
choice (log 7). -/
def Obligations.TableWordRunsNext : Prop :=
  ∀ (s : State) (w : Nat),
    ∃ i, decodeTableWord 32 w = some i ∧ step (s.withFetchWord 32 w) = exec i (s.withFetchWord 32 w)

/-- START in IDLE (R130) writes exactly the seven things R130 lists: IN is bound to the given bytes, POS is 0,
LAST_LEN is none, LEN_OFF is 0, BLOCKS is empty, RESIDUAL is 0 and PHASE is LEN; no other field of the decoder
changes. That the host's list of moves loses the move made is the model's own (log 2). -/
def Obligations.StartBindsTheInput : Prop :=
  ∀ (s : State) (m : Memory) (rest : List HostMove), s.host = .start m :: rest → s.phase = .idle →
    step s = .next { s with
      host := rest
      input := some m
      pos := 0
      lastLen := none
      lenOff := 0
      blocks := []
      residual := 0
      phase := .len }

/-- START outside IDLE has no move (R130, decision D16); that the model says so by the fault `startOutsideIdle` is its
own choice (log 4). The host's list of moves is log 2. -/
def Obligations.StartOutsideIdleHasNoMove : Prop :=
  ∀ (s : State) (m : Memory) (rest : List HostMove), s.host = .start m :: rest → s.phase ≠ .idle →
    step s = .fault .startOutsideIdle

/-- RESET in any phase gives the reset state (R261): that there is a RESET and what it leaves are the spec's decisions
D15 and D16 (log 13). That the host's later moves stay the host's is the model's own (log 2). -/
def Obligations.ResetRestoresTheResetState : Prop :=
  ∀ (s : State) (rest : List HostMove), s.host = .reset :: rest →
    step s = .next { State.reset with host := rest }

/-- The reset state, field by field (R43; nothing bound, R260): but for the counter's 0 at the start of a block these
values are the spec's own decision D15 (log 13). The empty list of host moves is the model's choice (log 2). -/
def Obligations.ResetValuesAreTheSpecs : Prop :=
  State.reset.phase = .idle ∧ State.reset.input = none ∧ State.reset.pos = 0 ∧ State.reset.lastLen = none ∧
  State.reset.lenOff = 0 ∧ State.reset.blkLen = 0#32 ∧ State.reset.widx = 0 ∧ State.reset.blkBase = 0 ∧
  State.reset.buf = [] ∧ State.reset.ovf = 0#24 ∧ State.reset.raw = false ∧ State.reset.tpb = 0#24 ∧
  State.reset.pend = [] ∧ State.reset.blocks = [] ∧ State.reset.bcount = 0 ∧ State.reset.residual = 0 ∧
  State.reset.err = { code := 0#8, slot := .none, block := 0, offset := 0, word := 0#32, settled := false } ∧
  State.reset.host = []

/-- While the host waits the decoder steps as if the host had nothing more to do. Where the decoder has no step, a
single wait passes in every quiescent phase (R240), and a wait for DONE or ERROR ends in those two (R233, R264 step
4). In IDLE a wait for the end has no decode to wait for, and that the model says so by the fault `quiescent` is its
own choice (log 3). The host's list of moves is the model's (log 2). That DONE is quiescent is the spec's decision
D16, the list of quiescent phases its D20, what the host waits for its D3. -/
def Obligations.WaitingHostLeavesTheDecoderAlone : Prop :=
  ∀ (s : State) (rest : List HostMove),
    (s.host = .wait :: rest → s.phase.quiescent = true → step s = .next { s with host := rest }) ∧
    (s.host = .wait :: rest → s.phase.quiescent = false → step s = decoderStep { s with host := rest }) ∧
    (s.host = .awaitEnd :: rest → s.phase.ended = true → step s = .next { s with host := rest }) ∧
    (s.host = .awaitEnd :: rest → s.phase.quiescent = false → step s = decoderStep s) ∧
    (s.host = .awaitEnd :: rest → s.phase = .idle → step s = .fault .quiescent)

/-- In IDLE, DONE and ERROR the decoder takes no step (R260, R231, R233); that the model says so by the fault
`quiescent` is its own choice (log 3). That IDLE and DONE have no step are the spec's decisions D15 and D16; the
host's list of moves is log 2. -/
def Obligations.QuiescentPhasesTakeNoStep : Prop :=
  ∀ s : State, s.host = [] → (s.phase = .idle ∨ s.phase = .done ∨ s.phase = .error) → step s = .fault .quiescent

/-! ### Completion and frame of each word class -/

/-- DESC completes in every state: it writes RAW, TPB, WIDX and PHASE and leaves every other field (R160). -/
def Obligations.DescriptorWordLatchesItsFields : Prop :=
  ∀ (rawMode : Bool) (timePerBin : BitVec 24) (s : State),
    exec (.desc rawMode timePerBin) s =
      .next { s with raw := rawMode, tpb := timePerBin, widx := s.widx + 1, phase := .hdr }

/-- HDR completes in every state: it writes WIDX and PHASE and leaves every other field, the overflow counter among
them (R170, R172). -/
def Obligations.HeaderWordOnlyAdvances : Prop :=
  ∀ (discarded : BitVec 31) (s : State),
    exec (.hdr discarded) s =
      .next { s with widx := s.widx + 1, phase := if s.widx + 1 < s.blkLen.toNat then .evt else .commit }

/-- OVF completes in every state: the counter is the payload, PEND and every other field but WIDX and PHASE stay
(R182, R183, R189). -/
def Obligations.OverflowWordReplacesTheCounter : Prop :=
  ∀ (ignored : BitVec 6) (payload : BitVec 24) (s : State),
    exec (.ovf ignored payload) s =
      .next { s with
        ovf := payload
        widx := s.widx + 1
        phase := if s.widx + 1 < s.blkLen.toNat then .evt else .commit }

/-- EVT completes in every state: one event at the end of PEND, its numbers those of R186 to R188; the counter and
every other field but WIDX and PHASE stay (R185). Codes 0 and 1 are another class. That a timestamp is held in 48 bits
is the spec's decision D13. -/
def Obligations.EventWordAppendsOneEvent : Prop :=
  ∀ (gap : Bool) (code : BitVec 5) (time : BitVec 24) (s : State), (Instr.evt gap code time).wellFormed = true →
    ∃ e : Event, e.channel.toNat = code.toNat - 2 ∧ e.timestamp.toNat = s.ovf.toNat * 2 ^ 24 + time.toNat ∧
      e.gap = gap ∧
      exec (.evt gap code time) s =
        .next { s with
          pend := s.pend ++ [e]
          widx := s.widx + 1
          phase := if s.widx + 1 < s.blkLen.toNat then .evt else .commit }

/-- The four error classes complete by entering the error: code, slot, block count, offset, word and settled flag,
PEND emptied, phase ERROR, and every other field as it was (R227). The numbers and the settled flags (R220, R221) are
the spec's decision D4, the context recorded (R228) its D5, and that HDR_BAD and EVT_LOWCH are errors its D6 and D7;
log 10. -/
def Obligations.ErrorWordsEnterTheError : Prop :=
  ∀ s : State,
    (∀ word : Word, exec (.descBad word) s = .next { s with
      err := { code := 0x01#8, slot := .descriptor, block := s.blocks.length, offset := s.blkBase + 4 * s.widx,
               word := word, settled := true }
      pend := []
      phase := .error }) ∧
    (∀ discarded : BitVec 31, exec (.hdrBad discarded) s = .next { s with
      err := { code := 0x02#8, slot := .header, block := s.blocks.length, offset := s.blkBase + 4 * s.widx,
               word := encode (.hdrBad discarded), settled := false }
      pend := []
      phase := .error }) ∧
    (∀ (o g : Bool) (code : BitVec 5) (payload : BitVec 24), exec (.evtRsv o g code payload) s = .next { s with
      err := { code := 0x02#8, slot := .event, block := s.blocks.length, offset := s.blkBase + 4 * s.widx,
               word := encode (.evtRsv o g code payload), settled := true }
      pend := []
      phase := .error }) ∧
    (∀ (g : Bool) (code : BitVec 5) (time : BitVec 24), exec (.evtLowch g code time) s = .next { s with
      err := { code := 0x11#8, slot := .event, block := s.blocks.length, offset := s.blkBase + 4 * s.widx,
               word := encode (.evtLowch g code time), settled := false }
      pend := []
      phase := .error })

/-- LEN completes, in both phases that work on it (the division over the phases is log 6): where a length word is read
it is recorded (R131), and where its body of at least two words is present the block is opened with the words of the
input (R132); nothing else changes. That the offsets LEN_OFF and BLK_BASE are kept is the spec's decision D5. -/
def Obligations.LengthWordOpensItsBlock : Prop :=
  ∀ (L : Word) (s : State) (m : Memory), s.input = some m →
    (s.phase = .len → s.pos + 4 ≤ m.length →
      exec (.len L) s = .next { s with pos := s.pos + 4, lastLen := some L, lenOff := s.pos, phase := .body }) ∧
    (s.phase = .body → s.pos + 4 * L.toNat ≤ m.length → 2 ≤ L.toNat →
      ∃ ws : List Word, ws.length = L.toNat ∧ (∀ i, i < L.toNat → ws[i]? = m.wordAt (s.pos + 4 * i)) ∧
        exec (.len L) s = .next { s with
          pos := s.pos + 4 * L.toNat
          blkLen := L
          blkBase := s.pos
          buf := ws
          widx := 0
          ovf := 0#24
          pend := []
          phase := .desc })

/-- TRAILER completes, in each phase that works on it (the division over the phases is log 6). LEN: recorded like any
length word (R131). BODY: its body is short, found without consuming a byte (R132). CHECK: the unread bytes are
counted (the spec's decision D11), and a trailer equal to the number of committed blocks ends the decode in DONE,
while any other raises TRAILER_MISMATCH and ends it in ERROR (R134) with code 0x03, slot TRAILER, the block count, the
offset LEN_OFF, the trailer as the word and the settled flag set, PEND emptied. The number and the settled flag (R220,
R221) are the spec's decision D4, the context (R228) its D5, and the block count and the emptied PEND are those of
error entry (R227); log 10. Nothing else changes in any of the four. That the short body consumes nothing is its D11
too, and that LEN_OFF is kept its D5. -/
def Obligations.TrailerWordEndsTheDecode : Prop :=
  ∀ (T : Word) (s : State) (m : Memory), s.input = some m →
    (s.phase = .len → s.pos + 4 ≤ m.length →
      exec (.trailer T) s =
        .next { s with pos := s.pos + 4, lastLen := some T, lenOff := s.pos, phase := .body }) ∧
    (s.phase = .body → m.length < s.pos + 4 * T.toNat →
      exec (.trailer T) s = .next { s with phase := .check }) ∧
    (s.phase = .check → T.toNat = s.blocks.length →
      exec (.trailer T) s = .next { s with residual := m.length - s.pos, phase := .done }) ∧
    (s.phase = .check → T.toNat ≠ s.blocks.length →
      exec (.trailer T) s = .next { s with
        residual := m.length - s.pos
        err := { code := 0x03#8, slot := .trailer, block := s.blocks.length, offset := s.lenOff, word := T,
                 settled := true }
        pend := []
        phase := .error })

/-- Whichever word an instruction is, it leaves the input, every byte of it, and the committed blocks as they were
(R66, R68, R72: only COMMIT writes the output), leaves the error record unless it enters the error (R35, R227), and
only TRAILER writes the residual (R34, the spec's decision D11). That it leaves the host's list of moves is about the
model's own field (log 2). -/
def Obligations.NoWordTouchesInputOrOutput : Prop :=
  ∀ (i : Instr) (s t : State), exec i s = .next t →
    t.host = s.host ∧ t.input = s.input ∧ t.blocks = s.blocks ∧
    (t.phase ≠ .error → t.err = s.err) ∧
    ((∀ T, i ≠ .trailer T) → t.residual = s.residual)

/-! ### The steps of the decoder, on the bits of the word -/

/-- The LEN step (R131): with four bytes left the word at the cursor is recorded with its offset and the cursor moves
by 4; with fewer the stream has ended, nothing is consumed and no error is raised (R242). That a short read consumes
nothing is the spec's decision D11 (R63), that the offset is kept its D5 (R24); log 10. The host's list of moves is
log 2. -/
def Obligations.LengthStepReadsOneWord : Prop :=
  ∀ (s : State) (m : Memory), s.host = [] → s.phase = .len → s.input = some m →
    (s.pos + 4 ≤ m.length →
      ∃ w, m.wordAt s.pos = some w ∧
        step s = .next { s with pos := s.pos + 4, lastLen := some w, lenOff := s.pos, phase := .body }) ∧
    (m.length < s.pos + 4 → step s = .next { s with phase := .check })

/-- The BODY step (R132): a short body ends the stream without an error and consumes nothing (decision D11); a whole
body of fewer than two words raises SHORT_BLOCK_LENGTH after its bytes are consumed, which is the spec's decision D8
(R133); a whole body of at least two words opens the block with the counter 0 and nothing pending. The error's number
and its settled flag (R220, R221) are the spec's decision D4, the context recorded (R228) its D5, and the block index
and the emptied PEND are those of error entry (R227); log 10. That the offset BLK_BASE is kept is its D5 (R27). The
host's list of moves is log 2. -/
def Obligations.BodyStepFetchesTheBlock : Prop :=
  ∀ (s : State) (m : Memory) (L : Word), s.host = [] → s.phase = .body → s.input = some m → s.lastLen = some L →
    (m.length < s.pos + 4 * L.toNat → step s = .next { s with phase := .check }) ∧
    (s.pos + 4 * L.toNat ≤ m.length → L.toNat < 2 →
      step s = .next { s with
        pos := s.pos + 4 * L.toNat
        err := { code := 0x12#8, slot := .length, block := s.blocks.length, offset := s.lenOff, word := L,
                 settled := false }
        pend := []
        phase := .error }) ∧
    (s.pos + 4 * L.toNat ≤ m.length → 2 ≤ L.toNat →
      ∃ ws : List Word, ws.length = L.toNat ∧ (∀ i, i < L.toNat → ws[i]? = m.wordAt (s.pos + 4 * i)) ∧
        step s = .next { s with
          pos := s.pos + 4 * L.toNat
          blkLen := L
          blkBase := s.pos
          buf := ws
          widx := 0
          ovf := 0#24
          pend := []
          phase := .desc })

/-- The CHECK step (R134): the residual is the number of unread bytes (decision D11); with no length word ever read
the error is NO_LENGTH_WORD (decision D9); a trailer equal to the block count ends in DONE; any other raises
TRAILER_MISMATCH. The errors' numbers and settled flags (R220, R221) are the spec's decision D4, the context recorded
(R228) its D5, and the block count and the emptied PEND are those of error entry (R227); log 10. -/
def Obligations.CheckStepComparesTheTrailer : Prop :=
  ∀ (s : State) (m : Memory), s.host = [] → s.phase = .check → s.input = some m →
    (s.lastLen = none → step s = .next { s with
      residual := m.length - s.pos
      err := { code := 0x13#8, slot := .length, block := s.blocks.length, offset := 0, word := 0#32,
               settled := false }
      pend := []
      phase := .error }) ∧
    (∀ T, s.lastLen = some T → T.toNat = s.blocks.length →
      step s = .next { s with residual := m.length - s.pos, phase := .done }) ∧
    (∀ T, s.lastLen = some T → T.toNat ≠ s.blocks.length → step s = .next { s with
      residual := m.length - s.pos
      err := { code := 0x03#8, slot := .trailer, block := s.blocks.length, offset := s.lenOff, word := T,
               settled := true }
      pend := []
      phase := .error })

/-- The DESC step on any word 0 (R160, R162): the top byte with bit 2 masked out is `0xC1`, and then bit 26 and the
low 24 bits are latched; or it is not, and INVALID_DESCRIPTOR is raised with RAW and TPB as they were. The
error's number and its settled flag (R220, R221) are the spec's decision D4, the context recorded (R228) its D5, and
the block index and the emptied PEND are those of error entry (R227); log 10. -/
def Obligations.DescriptorStepChecksTheSyncByte : Prop :=
  ∀ (s : State) (w : Word), s.host = [] → s.phase = .desc → s.buf[s.widx]? = some w →
    ((w.toNat / 2 ^ 24) &&& 0xFB = 0xC1 →
      step s = .next { s with
        raw := w.toNat / 2 ^ 26 % 2 == 1
        tpb := BitVec.ofNat 24 (w.toNat % 2 ^ 24)
        widx := s.widx + 1
        phase := .hdr }) ∧
    ((w.toNat / 2 ^ 24) &&& 0xFB ≠ 0xC1 →
      step s = .next { s with
        err := { code := 0x01#8, slot := .descriptor, block := s.blocks.length, offset := s.blkBase + 4 * s.widx,
                 word := w, settled := true }
        pend := []
        phase := .error })

/-- The HDR step on any word 1 (R170): bit 31 set raises INVALID_EVENT_RECORD in slot HEADER, unsettled, which is the
spec's decision D6 (R171); otherwise the word is discarded and the decoder goes on to the event words, or to the
commit when there are none. The error's number and its settled flag (R220, R221) are the spec's decision D4, the
context recorded (R228) its D5, and the block index and the emptied PEND are those of error entry (R227); log 10. -/
def Obligations.HeaderStepChecksOnlyTheReservedBit : Prop :=
  ∀ (s : State) (w : Word), s.host = [] → s.phase = .hdr → s.buf[s.widx]? = some w →
    (w.toNat / 2 ^ 31 = 1 →
      step s = .next { s with
        err := { code := 0x02#8, slot := .header, block := s.blocks.length, offset := s.blkBase + 4 * s.widx,
                 word := w, settled := false }
        pend := []
        phase := .error }) ∧
    (w.toNat / 2 ^ 31 = 0 →
      step s = .next { s with
        widx := s.widx + 1
        phase := if s.widx + 1 < s.blkLen.toNat then .evt else .commit })

/-- The EVT step (R180's dispatch) on the words the source settles: the reserved bit first, whatever else the word
holds (R181); then the overflow flag (R182); then an event of a channel code from 2 to 31 (R185, R186, R188), and the
advance of R189. The error's number and settled flag (R220, R221) are the spec's decision D4, the context recorded
(R228) its D5, and the block index and the emptied PEND are those of error entry (R227); log 10. Channel codes 0 and 1
are the statement LowChannelCodeRaisesItsError. That a timestamp is held in 48 bits is its D13. -/
def Obligations.EventStepDecomposesTheWord : Prop :=
  ∀ (s : State) (w : Word), s.host = [] → s.phase = .evt → s.buf[s.widx]? = some w →
    (w.toNat / 2 ^ 31 = 1 →
      step s = .next { s with
        err := { code := 0x02#8, slot := .event, block := s.blocks.length, offset := s.blkBase + 4 * s.widx,
                 word := w, settled := true }
        pend := []
        phase := .error }) ∧
    (w.toNat / 2 ^ 31 = 0 → w.toNat / 2 ^ 30 % 2 = 1 →
      step s = .next { s with
        ovf := BitVec.ofNat 24 (w.toNat % 2 ^ 24)
        widx := s.widx + 1
        phase := if s.widx + 1 < s.blkLen.toNat then .evt else .commit }) ∧
    (w.toNat / 2 ^ 31 = 0 → w.toNat / 2 ^ 30 % 2 = 0 → 2 ≤ w.toNat / 2 ^ 24 % 32 →
      step s = .next { s with
        pend := s.pend ++ [{ channel := BitVec.ofNat 5 (w.toNat / 2 ^ 24 % 32 - 2)
                             timestamp := BitVec.ofNat 48 (s.ovf.toNat * 2 ^ 24 + w.toNat % 2 ^ 24)
                             gap := w.toNat / 2 ^ 29 % 2 == 1 }]
        widx := s.widx + 1
        phase := if s.widx + 1 < s.blkLen.toNat then .evt else .commit })

/-- The EVT step on a word with reserved bit and overflow flag clear and channel code 0 or 1: LOW_CHANNEL, unsettled,
whatever the gap flag (R191). That this is an error is the spec's own decision D7. The error's number and its settled
flag (R220, R221) are the spec's decision D4, the context recorded (R228) its D5, and the block index and the emptied
PEND are those of error entry (R227); log 10. -/
def Obligations.LowChannelCodeRaisesItsError : Prop :=
  ∀ (s : State) (w : Word), s.host = [] → s.phase = .evt → s.buf[s.widx]? = some w →
    w.toNat / 2 ^ 31 = 0 → w.toNat / 2 ^ 30 % 2 = 0 → w.toNat / 2 ^ 24 % 32 < 2 →
      step s = .next { s with
        err := { code := 0x11#8, slot := .event, block := s.blocks.length, offset := s.blkBase + 4 * s.widx,
                 word := w, settled := false }
        pend := []
        phase := .error }

/-- The COMMIT step (R190): the block goes to the end of the list as one unit, with the latched `rawMode` and
`timePerBin`; the count grows by 1, nothing is pending, the decoder is back in LEN, and nothing else changes. The
count is computed (R33, log 11). -/
def Obligations.CommitStepAppendsOneBlock : Prop :=
  ∀ s : State, s.host = [] → s.phase = .commit →
    ∃ t, step s = .next t ∧ t.bcount = s.bcount + 1 ∧
      t = { s with
        blocks := s.blocks ++ [{ rawMode := s.raw, timePerBin := s.tpb, events := s.pend }]
        pend := []
        phase := .len }

/-- R186, R187 and D13: for codes 2 to 31 the channel is the code minus 2 and at most 29; the timestamp is exactly
`S.OVF * 2^24 + w[23:0]`, in 48 bits and on the 64-bit output alike. -/
def Obligations.TimestampsAndChannelsAreExact : Prop :=
  ∀ (ovf time : BitVec 24) (gap : Bool) (code : BitVec 5), 2 ≤ code.toNat →
    (eventOf ovf gap code time).channel.toNat = code.toNat - 2 ∧
    (eventOf ovf gap code time).channel.toNat ≤ 29 ∧
    (eventOf ovf gap code time).timestamp.toNat = ovf.toNat * 2 ^ 24 + time.toNat ∧
    (eventOf ovf gap code time).timestamp64.toNat = ovf.toNat * 2 ^ 24 + time.toNat ∧
    (eventOf ovf gap code time).gap = gap

/-- The numeric codes of R220, all of them the spec's own decision D4, and the settled outcomes of R221. For NONE and
TRUNCATED_BLOCK, which no step raises, R220 gives no settled flag; that the model's function answers `false` there too
is its own choice (log 10). -/
def Obligations.ErrorCodesAndSettledOutcomes : Prop :=
  ErrorName.code .none = 0x00#8 ∧ ErrorName.code .invalidDescriptor = 0x01#8 ∧
  ErrorName.code .invalidEventRecord = 0x02#8 ∧ ErrorName.code .trailerMismatch = 0x03#8 ∧
  ErrorName.code .truncatedBlock = 0x04#8 ∧ ErrorName.code .lowChannel = 0x11#8 ∧
  ErrorName.code .shortBlockLength = 0x12#8 ∧ ErrorName.code .noLengthWord = 0x13#8 ∧
  (∀ e : ErrorName, ErrorName.ofCode e.code = some e) ∧
  (∀ (e : ErrorName) (slot : ErrSlot), e.settled slot = true ↔
    e = .invalidDescriptor ∨ e = .trailerMismatch ∨ (e = .invalidEventRecord ∧ slot = .event))

/-- R229: `Ok` with the blocks and the residual in DONE, `Err` with the record and no block in ERROR, which is the
spec's decision D12, otherwise no result yet. The residual is its D11, the record's numbers and context its D4 and D5;
log 10. -/
def Obligations.ResultIsDeliveredOnlyAtTheEnd : Prop :=
  ∀ s : State,
    (s.phase = .done → s.result = .ok s.blocks s.residual) ∧
    (s.phase = .error → s.result = .err s.err) ∧
    (s.phase ≠ .done → s.phase ≠ .error → s.result = .noResultYet)

/-! ### Invariants and whole-machine rules -/

/-- The reset state has the invariant (R44). The reset values are the spec's decision D15 (log 13). -/
def Obligations.ResetStateMeetsTheInvariant : Prop := State.reset.Inv

/-- R44: every step, the host's moves among them, keeps the invariant, from every state that has it. R44 speaks of
START and the decoder's steps; that RESET gives the reset values is the spec's decision D15 (log 13), that the unread
bytes are counted in DONE its D11 (log 10), and the host's list of moves is log 2. -/
def Obligations.EveryStepKeepsTheInvariant : Prop :=
  ∀ s t : State, s.Inv → step s = .next t → t.Inv

/-- R183 with R132: a step of the decoder on an overflow word replaces the counter by the word's payload; every other
step leaves it, but for the fetch of a block body, which puts it to 0 (R132); nothing adds to it. In particular two
overflow words in a row leave the second payload. -/
def Obligations.CounterIsReplacedNeverAdded : Prop :=
  (∀ (s t : State) (w : Word), s.host = [] → s.phase = .evt → s.buf[s.widx]? = some w → w.toNat / 2 ^ 30 = 1 →
    step s = .next t → t.ovf.toNat = w.toNat % 2 ^ 24) ∧
  (∀ s t : State, s.host = [] → step s = .next t →
    (∀ w, s.phase = .evt → s.buf[s.widx]? = some w → w.toNat / 2 ^ 30 ≠ 1) →
    t.ovf = s.ovf ∨ (s.phase = .body ∧ t.phase = .desc ∧ t.ovf = 0#24)) ∧
  (∀ (s t u : State) (ig ig' : BitVec 6) (a b : BitVec 24),
    exec (.ovf ig a) s = .next t → exec (.ovf ig' b) t = .next u → u.ovf = b)

/-- R33, R72, R190: a step of the decoder leaves the committed blocks as they are, or, in COMMIT, puts one whole block
after them. -/
def Obligations.CommittedBlocksNeverChange : Prop :=
  ∀ s t : State, s.host = [] → step s = .next t →
    (s.phase ≠ .commit → t.blocks = s.blocks) ∧
    (s.phase = .commit →
      t.blocks = s.blocks ++ [{ rawMode := s.raw, timePerBin := s.tpb, events := s.pend }])

/-- No step writes the bound input (R66); another input stands there only where START has bound it (R130), and none
only where RESET has given the reset state, in which nothing is bound (R260, R261, the spec's decision D15, log 13).
The host's list of moves, by which the two are told, is the model's own (log 2). -/
def Obligations.InputIsNeverWritten : Prop :=
  ∀ s t : State, step s = .next t →
    t.input = s.input ∨ (∃ m rest, s.host = .start m :: rest ∧ t.input = some m) ∨
      (∃ rest, s.host = .reset :: rest ∧ t.input = none)

/-- R22, R64: the cursor moves only by the four bytes of a length word in LEN or by the whole body in BODY, and never
backwards. That a short read leaves it is the spec's decision D11 (R63, log 10). -/
def Obligations.CursorMovesOnlyByWholeReads : Prop :=
  ∀ s t : State, s.host = [] → step s = .next t →
    t.pos = s.pos ∨ (s.phase = .len ∧ t.pos = s.pos + 4) ∨
      (s.phase = .body ∧ ∃ L : Word, s.lastLen = some L ∧ t.pos = s.pos + 4 * L.toNat)

/-- R25, R27, R28, R30, R31, R24, R23, R34: who writes the latches: RAW and TPB only DESC, BUF, BLK_LEN and BLK_BASE
only BODY, LAST_LEN and LEN_OFF only LEN, RESIDUAL only CHECK. The offsets LEN_OFF and BLK_BASE are the spec's
decision D5, the residual its D11. -/
def Obligations.EachLatchHasItsOneWriter : Prop :=
  ∀ s t : State, s.host = [] → step s = .next t →
    (s.phase ≠ .desc → t.raw = s.raw ∧ t.tpb = s.tpb) ∧
    (s.phase ≠ .body → t.buf = s.buf ∧ t.blkLen = s.blkLen ∧ t.blkBase = s.blkBase) ∧
    (s.phase ≠ .len → t.lastLen = s.lastLen ∧ t.lenOff = s.lenOff) ∧
    (s.phase ≠ .check → t.residual = s.residual)

/-- R35, R225, R227: a step of the decoder writes the error record only by entering ERROR; it then records the block
count and one of the six raised codes, and drops the pending events. The codes' numbers are the spec's decision D4,
that TRUNCATED_BLOCK is never among them its D10; log 10. -/
def Obligations.ErrorRecordIsWrittenOnlyByErrorEntry : Prop :=
  ∀ s t : State, s.host = [] → step s = .next t →
    (t.phase ≠ .error → t.err = s.err) ∧
    (t.phase = .error → t.err.block = s.blocks.length ∧ t.pend = [] ∧ t.blocks = s.blocks ∧
      t.err.code ∈ [0x01#8, 0x02#8, 0x03#8, 0x11#8, 0x12#8, 0x13#8])

/-- R227, R228: errors are precise: from a state with the invariant, the word recorded is the word of the input at the
offset recorded, unless no length word was ever there (code 0x13, the spec's decision D9 with D4 for the number). That
offset and word are recorded is its decision D5; log 10. -/
def Obligations.ErrorsArePrecise : Prop :=
  ∀ (s t : State) (m : Memory), s.Inv → s.host = [] → s.input = some m → step s = .next t → t.phase = .error →
    t.err.code = 0x13#8 ∨ m.wordAt t.err.offset = some t.err.word

/-- R231 on the model's steps: out of ERROR there is only RESET, which gives the reset state (R261, the spec's
decision D15, log 13); every other step leaves the decoder's whole state, the error record with it, and START is not
accepted. What becomes of the host's list, kept by RESET but for the move made and shortened by a wait, is the model's
own choice (log 2). -/
def Obligations.ErrorIsLeftOnlyByReset : Prop :=
  ∀ s t : State, s.phase = .error → step s = .next t →
    (∃ rest, s.host = .reset :: rest ∧ t = { State.reset with host := rest }) ∨
      (t = { s with host := s.host.tail } ∧ ∀ m rest, s.host ≠ .start m :: rest)

/-- R233, the spec's decision D16: DONE is quiescent in the same way, and its result is kept until RESET, which gives
the reset state (R261, decision D15, log 13). What becomes of the host's list, kept by RESET but for the move made and
shortened by a wait, is the model's own choice (log 2). -/
def Obligations.ResultIsKeptUntilReset : Prop :=
  ∀ s t : State, s.phase = .done → step s = .next t →
    (∃ rest, s.host = .reset :: rest ∧ t = { State.reset with host := rest }) ∨
      (t = { s with host := s.host.tail } ∧ t.result = .ok s.blocks s.residual ∧
        ∀ m rest, s.host ≠ .start m :: rest)

/-- R21, R140: the decoder goes from phase to phase only as the spec's steps do; from the source's `Terminated` phases it
never comes back to `ReadingBlocks`. -/
def Obligations.PhasesFollowTheStepSequence : Prop :=
  ∀ s t : State, s.host = [] → step s = .next t →
    (s.phase, t.phase) ∈ phaseMoves ∧ (t.phase.readingBlocks = true → s.phase.readingBlocks = true)

/-- R135: CHECK is reached in exactly two ways, a short read of a length word (R131) or of a block body (R132).
Nothing but the phase changes on the way: R131 and R132 write nothing else on a short read, and that the read itself
leaves the cursor is the spec's decision D11 (R63, log 10). The host's list of moves is log 2. -/
def Obligations.CheckIsReachedOnlyByAShortRead : Prop :=
  ∀ s t : State, s.host = [] → step s = .next t → t.phase = .check →
    t = { s with phase := .check } ∧ ∃ m, s.input = some m ∧
      ((s.phase = .len ∧ m.length < s.pos + 4) ∨
        (s.phase = .body ∧ ∃ L : Word, s.lastLen = some L ∧ m.length < s.pos + 4 * L.toNat))

/-- R139: a decode that a step brings to DONE has as many blocks as its trailer says. -/
def Obligations.SuccessfulDecodeCountsItsBlocks : Prop :=
  ∀ s t : State, s.host = [] → step s = .next t → t.phase = .done →
    ∃ T : Word, t.lastLen = some T ∧ t.blocks.length = T.toNat

/-- R192: the block committed from a state with the invariant has as many events as its event words less the overflow
words among them. -/
def Obligations.EventCountOfACommittedBlock : Prop :=
  ∀ s : State, s.Inv → s.host = [] → s.phase = .commit →
    ∃ t b, step s = .next t ∧ t.blocks = s.blocks ++ [b] ∧
      b.events.length + (s.buf.drop 2).countP (fun w => w.toNat / 2 ^ 30 == 1) = s.blkLen.toNat - 2

/-- R2, R161: `rawMode` selects nothing: states that differ only in raw modes step to states that differ only in raw
modes. The steps are the host's too (log 2). -/
def Obligations.RawModeSelectsNothing : Prop :=
  ∀ s s' t : State, s.eraseRaw = s'.eraseRaw → step s = .next t →
    ∃ t', step s' = .next t' ∧ t.eraseRaw = t'.eraseRaw

/-- R193: a block starts fresh: whatever the counter, the pending events and the last block's words were, the state
after a fetched body is the same, with the counter 0. -/
def Obligations.BlockStartsFresh : Prop :=
  ∀ (s : State) (m : Memory) (L : Word) (ovf : BitVec 24) (pend : List Event) (buf : List Word) (n b i : Nat),
    s.host = [] → s.phase = .body → s.input = some m → s.lastLen = some L → 2 ≤ L.toNat →
    s.pos + 4 * L.toNat ≤ m.length →
    step { s with ovf := ovf, pend := pend, buf := buf, blkLen := BitVec.ofNat 32 n, blkBase := b, widx := i } =
        step s ∧
      ∃ t, step s = .next t ∧ t.ovf = 0#24 ∧ t.pend = []

/-- R193, and R42 for the fields of the block decoder: nothing an earlier block's decode left in BLK_LEN, WIDX,
BLK_BASE, BUF, OVF, RAW, TPB or PEND reaches the host: two states in LEN that differ in these fields only show the same
status view after every number of steps. The hidden fields LAST_LEN and LEN_OFF belong to the Framing Unit, are held
equal here, and do reach the host through the trailer check (90_conflicts.md C1). -/
def Obligations.BlockDecoderFieldsNeverReachTheHost : Prop :=
  ∀ s s' : State, s.phase = .len →
    s' = { s with blkLen := s'.blkLen, widx := s'.widx, blkBase := s'.blkBase, buf := s'.buf, ovf := s'.ovf,
                  raw := s'.raw, tpb := s'.tpb, pend := s'.pend } →
    ∀ k, s.viewAfter k = s'.viewAfter k

/-! ### Headline results -/

/-- R271: every decode ends: from reset, a decode of any input of N bytes is in DONE or ERROR after at most N / 2 + 4
steps, counting START. The host that issues START and nothing more is a list of one move (log 2). -/
def Obligations.EveryDecodeEnds : Prop :=
  ∀ m : Memory, ∃ k t, k ≤ m.length / 2 + 4 ∧ (State.decoding m).runsTo k t ∧ t.phase.ended = true

/-- The block decoder refines, on numbers, the source's §4.2 algorithm (quoted at the head of 43_event_words.md) as
the spec completes it: a block in DESC whose words it accepts is committed after `L + 1` steps with exactly its block,
and one it does not accept ends in ERROR within `L` steps with no block added. The source itself rejects a bad sync
byte and a reserved bit in an event word; that a header with bit 31 set and channel codes 0 and 1 are rejected too is
the spec's own decision D6 and D7, unsettled (R171, R191, log 10). -/
def Obligations.BlockDecodesAsTheSource : Prop :=
  ∀ (s : State) (d h : Word) (ws : List Word), s.host = [] → s.phase = .desc → s.widx = 0 → s.buf = d :: h :: ws →
    s.blkLen.toNat = s.buf.length → s.ovf = 0#24 → s.pend = [] →
    (∀ b, sourceBlock (s.buf.map BitVec.toNat) = some b →
      ∃ t blk, s.runsTo (ws.length + 3) t ∧ t.phase = .len ∧ t.pos = s.pos ∧ t.input = s.input ∧
        t.lastLen = s.lastLen ∧ t.blocks = s.blocks ++ [blk] ∧ blk.toSource = b) ∧
    (sourceBlock (s.buf.map BitVec.toNat) = none →
      ∃ k t, k ≤ ws.length + 2 ∧ s.runsTo k t ∧ t.phase = .error ∧ t.blocks = s.blocks)

/-- The machine refines, on numbers, the source's `decode` (quoted at the head of 40_stream_framing.md, read as
90_conflicts.md C1 says) as the spec completes it: for every input, the state that ends the run from reset is DONE with
exactly its blocks and unread bytes, or, where it has no result, ERROR. That bit 31 of a header (D6), channel codes 0 and
1 (D7), a whole body of fewer than two words (D8) and an input without a length word (D9) have no result, and that the
unread bytes are counted (D11), are the spec's own decisions (log 10); the source has no outcome for them. -/
def Obligations.DecodeAgreesWithTheSource : Prop :=
  ∀ (m : Memory) (k : Nat) (t : State), (State.decoding m).runsTo k t → t.phase.ended = true →
    (∀ bs r, sourceDecode m = some (bs, r) →
      t.phase = .done ∧ t.blocks.map Block.toSource = bs ∧ t.residual = r) ∧
    (sourceDecode m = none → t.phase = .error)

/-- R271, as a step lemma: from every state with the invariant in which the decoder has a step to take, it takes one,
to a next state that has the invariant and fewer steps left before the end; so no decode hangs and none stops short of
DONE or ERROR. `State.stepsLeft` bounds the steps left by the unread bytes, the words left in the block and the phase;
in LEN with `n` unread bytes it is `n / 2 + 3`, the bound of R271 without START. -/
def Obligations.EveryStepOfADecodeMakesProgress : Prop :=
  ∀ s : State, s.Inv → s.host = [] → s.phase.quiescent = false →
    (∃ t, step s = .next t ∧ t.Inv ∧ t.stepsLeft < s.stepsLeft) ∧
    (s.phase = .len → ∀ m, s.input = some m → s.stepsLeft = (m.length - s.pos) / 2 + 3)

/-! ### Rules stated alone -/

/-- R161 for every step there is, the host's moves among them. COMMIT: whatever RAW and TPB hold goes unchanged into the
block, the last of the list, changes nothing else of the next state, and stays in RAW and TPB. Any other step reads
neither: its next state is wholly the same whatever RAW and TPB held, or the same but for RAW and TPB, which both keep
exactly what they held. Nor does what the host reads (the status view and the result) depend on them. The steps that wait,
START and RESET are told by the model's host list (log 2); what those moves leave is stated elsewhere. -/
def Obligations.DescriptorFieldsArePassedThrough : Prop :=
  ∀ s : State,
    (s.phase = .commit → (∀ m rest, s.host ≠ .start m :: rest) → (∀ rest, s.host ≠ .reset :: rest) →
      ∃ (t : State) (b : Block), ∀ (r : Bool) (v : BitVec 24),
        step { s with raw := r, tpb := v } =
          .next { t with raw := r, tpb := v, blocks := s.blocks ++ [{ b with rawMode := r, timePerBin := v }] }) ∧
    ((s.phase = .commit → ∃ rest, s.host = .reset :: rest) → ∀ t, step s = .next t →
      (∀ (r : Bool) (v : BitVec 24), step { s with raw := r, tpb := v } = .next t) ∨
      (∀ (r : Bool) (v : BitVec 24),
        step { s with raw := r, tpb := v } = .next { t with raw := r, tpb := v })) ∧
    (∀ (r : Bool) (v : BitVec 24),
      { s with raw := r, tpb := v }.statusView = s.statusView ∧ { s with raw := r, tpb := v }.result = s.result)

/-- R66: the decoder never writes the input: no step of the decoder, in any phase, and no word it decodes. -/
def Obligations.DecoderNeverWritesTheInput : Prop :=
  (∀ s t : State, decoderStep s = .next t → t.input = s.input) ∧
  (∀ (i : Instr) (s t : State), exec i s = .next t → t.input = s.input)

/-- R231: in ERROR the decoder takes no step, START is not accepted, and until the host issues RESET every step keeps the
phase and the error record. The statement asks of the model's host list (log 2) only which move is next. -/
def Obligations.ErrorPhaseIsQuiescent : Prop :=
  ∀ s : State, s.phase = .error →
    (∀ t, decoderStep s ≠ .next t) ∧
    (∀ (m : Memory) (rest : List HostMove) (t : State), s.host = .start m :: rest → step s ≠ .next t) ∧
    (∀ t, (∀ rest, s.host ≠ .reset :: rest) → step s = .next t → t.phase = .error ∧ t.err = s.err)
end

