-- ==== Sys2Proof/Laws/Decode.lean ====
section
/-! SUPPORT. Small laws of field extraction, byte order and the encoder. -/

namespace Sys2Proof

@[simp] theorem leBytes_length (w : Word) : (leBytes w).length = 4 := rfl

theorem leWord_leBytes (w : Word) :
    leWord (w.extractLsb' 0 8) (w.extractLsb' 8 8) (w.extractLsb' 16 8) (w.extractLsb' 24 8) = w := by
  unfold leWord
  ext i hi
  simp only [BitVec.getElem_append, BitVec.getElem_extractLsb']
  simp only [← BitVec.getLsbD_eq_getElem hi]
  split <;> [skip; split <;> [skip; split]] <;> (congr 1; omega)

theorem wordsOf_leBytes (w : Word) (rest : List Byte) : wordsOf (leBytes w ++ rest) = w :: wordsOf rest := by
  simp [leBytes, wordsOf, leWord_leBytes]

theorem decodeBytes_leBytes (slot : Slot) (b : Bool) (w : Word) (rest : List Byte) :
    decodeBytes slot b (leBytes w ++ rest) = .instr (classify slot b w) rest := by
  simp [leBytes, decodeBytes, leWord_leBytes]

/-- What the decoder answers for a word of 32 bits given alone. -/
theorem decodeTableWord_of_le {nbits w : Nat} (h : nbits ≤ 32) :
    decodeTableWord nbits w = some (classify (tableSlot (tableWord nbits w)) false (tableWord nbits w)) := by
  have := decodeBytes_leBytes (tableSlot (tableWord nbits w)) false (tableWord nbits w) []
  rw [List.append_nil] at this
  simp [decodeTableWord, h, this]

/-! ### The bits of an encoded word -/

theorem encode_desc_getLsbD (r : Bool) (t : BitVec 24) (i : Nat) :
    (encode (.desc r t)).getLsbD i =
      if i < 24 then t.getLsbD i
      else if i < 26 then (0b01#2).getLsbD (i - 24)
      else if i < 27 then (BitVec.ofBool r).getLsbD (i - 26)
      else (0b11000#5).getLsbD (i - 27) := by
  rw [show (encode (.desc r t)).getLsbD i =
    BitVec.getLsbD (0b11000#5 ++ BitVec.ofBool r ++ 0b01#2 ++ t : BitVec (5 + 1 + 2 + 24)) i from rfl]
  simp only [BitVec.getLsbD_append]
  split_ifs <;> first | rfl | omega

theorem encode_hdr_getLsbD (d : BitVec 31) (i : Nat) :
    (encode (.hdr d)).getLsbD i = if i < 31 then d.getLsbD i else (0#1).getLsbD (i - 31) :=
  BitVec.getLsbD_append (x := 0#1) (y := d)

theorem encode_hdrBad_getLsbD (d : BitVec 31) (i : Nat) :
    (encode (.hdrBad d)).getLsbD i = if i < 31 then d.getLsbD i else (1#1).getLsbD (i - 31) :=
  BitVec.getLsbD_append (x := 1#1) (y := d)

theorem encode_evtRsv_getLsbD (o g : Bool) (c : BitVec 5) (p : BitVec 24) (i : Nat) :
    (encode (.evtRsv o g c p)).getLsbD i =
      if i < 24 then p.getLsbD i
      else if i < 29 then c.getLsbD (i - 24)
      else if i < 30 then (BitVec.ofBool g).getLsbD (i - 29)
      else if i < 31 then (BitVec.ofBool o).getLsbD (i - 30)
      else (1#1).getLsbD (i - 31) := by
  rw [show (encode (.evtRsv o g c p)).getLsbD i =
    BitVec.getLsbD (1#1 ++ BitVec.ofBool o ++ BitVec.ofBool g ++ c ++ p : BitVec (1 + 1 + 1 + 5 + 24)) i from rfl]
  simp only [BitVec.getLsbD_append]
  split_ifs <;> first | rfl | omega

theorem encode_ovf_getLsbD (ig : BitVec 6) (v : BitVec 24) (i : Nat) :
    (encode (.ovf ig v)).getLsbD i =
      if i < 24 then v.getLsbD i
      else if i < 30 then ig.getLsbD (i - 24)
      else (0b01#2).getLsbD (i - 30) := by
  rw [show (encode (.ovf ig v)).getLsbD i =
    BitVec.getLsbD (0b01#2 ++ ig ++ v : BitVec (2 + 6 + 24)) i from rfl]
  simp only [BitVec.getLsbD_append]
  split_ifs <;> first | rfl | omega

theorem encode_evt_getLsbD (g : Bool) (c : BitVec 5) (t : BitVec 24) (i : Nat) :
    (encode (.evt g c t)).getLsbD i =
      if i < 24 then t.getLsbD i
      else if i < 29 then c.getLsbD (i - 24)
      else if i < 30 then (BitVec.ofBool g).getLsbD (i - 29)
      else (0b00#2).getLsbD (i - 30) := by
  rw [show (encode (.evt g c t)).getLsbD i =
    BitVec.getLsbD (0b00#2 ++ BitVec.ofBool g ++ c ++ t : BitVec (2 + 1 + 5 + 24)) i from rfl]
  simp only [BitVec.getLsbD_append]
  split_ifs <;> first | rfl | omega

theorem encode_evtLowch_getLsbD (g : Bool) (c : BitVec 5) (t : BitVec 24) (i : Nat) :
    (encode (.evtLowch g c t)).getLsbD i = (encode (.evt g c t)).getLsbD i := rfl

/-- The slot a class is read in is the slot of the class. -/
theorem classify_slot (slot : Slot) (b : Bool) (w : Word) : (classify slot b w).slot = slot := by
  cases slot with
  | length => simp only [classify, decodeLength]; split <;> rfl
  | descriptor => simp only [classify, decodeDescriptor]; split <;> rfl
  | header => simp only [classify, decodeHeader]; split <;> rfl
  | event =>
    simp only [classify, decodeEvent]
    split
    · rfl
    · rfl
    · split <;> rfl

/-- The four classes of an EVENT slot and when a word is of each (43_event_words.md R180). -/
theorem decodeEvent_cases (w : Word) :
    (reservedHighBit w = true ∧
        decodeEvent w = .evtRsv (overflowFlag w) (gapFlagOf w) (channelCodeOf w) (payloadOf w)) ∨
      (reservedHighBit w = false ∧ overflowFlag w = true ∧ decodeEvent w = .ovf (ignoredOf w) (payloadOf w)) ∨
      (reservedHighBit w = false ∧ overflowFlag w = false ∧ (channelCodeOf w).toNat < 2 ∧
        decodeEvent w = .evtLowch (gapFlagOf w) (channelCodeOf w) (payloadOf w)) ∨
      (reservedHighBit w = false ∧ overflowFlag w = false ∧ 2 ≤ (channelCodeOf w).toNat ∧
        decodeEvent w = .evt (gapFlagOf w) (channelCodeOf w) (payloadOf w)) := by
  by_cases hr : reservedHighBit w = true
  · exact .inl ⟨hr, by simp [decodeEvent, decompose, hr]⟩
  · have hr : reservedHighBit w = false := by simpa using hr
    by_cases ho : overflowFlag w = true
    · exact .inr (.inl ⟨hr, ho, by simp [decodeEvent, decompose, hr, ho]⟩)
    · have ho : overflowFlag w = false := by simpa using ho
      by_cases hc : (channelCodeOf w).toNat < 2
      · exact .inr (.inr (.inl ⟨hr, ho, hc, by simp [decodeEvent, decompose, hr, ho, hc]⟩))
      · exact .inr (.inr (.inr ⟨hr, ho, by omega, by simp [decodeEvent, decompose, hr, ho, hc]⟩))

end Sys2Proof
end

