-- ==== Sys2Proof/Laws/State.lean ====
section
/-! SUPPORT. One lemma per field per update of the state, true by definition, so that no proof unfolds a record
update. -/

namespace Sys2Proof.Machine

/-! ### `goto` -/

@[simp] theorem goto_host (p : Phase) (s : State) : (s.goto p).host = s.host := rfl
@[simp] theorem goto_input (p : Phase) (s : State) : (s.goto p).input = s.input := rfl
@[simp] theorem goto_phase (p : Phase) (s : State) : (s.goto p).phase = p := rfl
@[simp] theorem goto_pos (p : Phase) (s : State) : (s.goto p).pos = s.pos := rfl
@[simp] theorem goto_lastLen (p : Phase) (s : State) : (s.goto p).lastLen = s.lastLen := rfl
@[simp] theorem goto_lenOff (p : Phase) (s : State) : (s.goto p).lenOff = s.lenOff := rfl
@[simp] theorem goto_blkLen (p : Phase) (s : State) : (s.goto p).blkLen = s.blkLen := rfl
@[simp] theorem goto_widx (p : Phase) (s : State) : (s.goto p).widx = s.widx := rfl
@[simp] theorem goto_blkBase (p : Phase) (s : State) : (s.goto p).blkBase = s.blkBase := rfl
@[simp] theorem goto_buf (p : Phase) (s : State) : (s.goto p).buf = s.buf := rfl
@[simp] theorem goto_ovf (p : Phase) (s : State) : (s.goto p).ovf = s.ovf := rfl
@[simp] theorem goto_raw (p : Phase) (s : State) : (s.goto p).raw = s.raw := rfl
@[simp] theorem goto_tpb (p : Phase) (s : State) : (s.goto p).tpb = s.tpb := rfl
@[simp] theorem goto_pend (p : Phase) (s : State) : (s.goto p).pend = s.pend := rfl
@[simp] theorem goto_blocks (p : Phase) (s : State) : (s.goto p).blocks = s.blocks := rfl
@[simp] theorem goto_residual (p : Phase) (s : State) : (s.goto p).residual = s.residual := rfl
@[simp] theorem goto_err (p : Phase) (s : State) : (s.goto p).err = s.err := rfl
@[simp] theorem goto_bcount (p : Phase) (s : State) : (s.goto p).bcount = s.bcount := rfl

/-! ### `endOfStream` -/

@[simp] theorem endOfStream_host (s : State) : (endOfStream s).host = s.host := rfl
@[simp] theorem endOfStream_input (s : State) : (endOfStream s).input = s.input := rfl
@[simp] theorem endOfStream_phase (s : State) : (endOfStream s).phase = .check := rfl
@[simp] theorem endOfStream_pos (s : State) : (endOfStream s).pos = s.pos := rfl
@[simp] theorem endOfStream_lastLen (s : State) : (endOfStream s).lastLen = s.lastLen := rfl
@[simp] theorem endOfStream_lenOff (s : State) : (endOfStream s).lenOff = s.lenOff := rfl
@[simp] theorem endOfStream_blkLen (s : State) : (endOfStream s).blkLen = s.blkLen := rfl
@[simp] theorem endOfStream_widx (s : State) : (endOfStream s).widx = s.widx := rfl
@[simp] theorem endOfStream_blkBase (s : State) : (endOfStream s).blkBase = s.blkBase := rfl
@[simp] theorem endOfStream_buf (s : State) : (endOfStream s).buf = s.buf := rfl
@[simp] theorem endOfStream_ovf (s : State) : (endOfStream s).ovf = s.ovf := rfl
@[simp] theorem endOfStream_raw (s : State) : (endOfStream s).raw = s.raw := rfl
@[simp] theorem endOfStream_tpb (s : State) : (endOfStream s).tpb = s.tpb := rfl
@[simp] theorem endOfStream_pend (s : State) : (endOfStream s).pend = s.pend := rfl
@[simp] theorem endOfStream_blocks (s : State) : (endOfStream s).blocks = s.blocks := rfl
@[simp] theorem endOfStream_residual (s : State) : (endOfStream s).residual = s.residual := rfl
@[simp] theorem endOfStream_err (s : State) : (endOfStream s).err = s.err := rfl
@[simp] theorem endOfStream_bcount (s : State) : (endOfStream s).bcount = s.bcount := rfl

/-! ### `advance` -/

@[simp] theorem advance_host (s : State) : (advance s).host = s.host := rfl
@[simp] theorem advance_input (s : State) : (advance s).input = s.input := rfl
@[simp] theorem advance_phase (s : State) :
    (advance s).phase = if s.widx + 1 < s.blkLen.toNat then .evt else .commit := rfl
@[simp] theorem advance_pos (s : State) : (advance s).pos = s.pos := rfl
@[simp] theorem advance_lastLen (s : State) : (advance s).lastLen = s.lastLen := rfl
@[simp] theorem advance_lenOff (s : State) : (advance s).lenOff = s.lenOff := rfl
@[simp] theorem advance_blkLen (s : State) : (advance s).blkLen = s.blkLen := rfl
@[simp] theorem advance_widx (s : State) : (advance s).widx = s.widx + 1 := rfl
@[simp] theorem advance_blkBase (s : State) : (advance s).blkBase = s.blkBase := rfl
@[simp] theorem advance_buf (s : State) : (advance s).buf = s.buf := rfl
@[simp] theorem advance_ovf (s : State) : (advance s).ovf = s.ovf := rfl
@[simp] theorem advance_raw (s : State) : (advance s).raw = s.raw := rfl
@[simp] theorem advance_tpb (s : State) : (advance s).tpb = s.tpb := rfl
@[simp] theorem advance_pend (s : State) : (advance s).pend = s.pend := rfl
@[simp] theorem advance_blocks (s : State) : (advance s).blocks = s.blocks := rfl
@[simp] theorem advance_residual (s : State) : (advance s).residual = s.residual := rfl
@[simp] theorem advance_err (s : State) : (advance s).err = s.err := rfl
@[simp] theorem advance_bcount (s : State) : (advance s).bcount = s.bcount := rfl

/-! ### `raiseError` -/

@[simp] theorem raiseError_host (e : ErrorName) (sl : ErrSlot) (off : Nat) (w : Word) (s : State) :
    (raiseError e sl off w s).host = s.host := rfl
@[simp] theorem raiseError_input (e : ErrorName) (sl : ErrSlot) (off : Nat) (w : Word) (s : State) :
    (raiseError e sl off w s).input = s.input := rfl
@[simp] theorem raiseError_phase (e : ErrorName) (sl : ErrSlot) (off : Nat) (w : Word) (s : State) :
    (raiseError e sl off w s).phase = .error := rfl
@[simp] theorem raiseError_pos (e : ErrorName) (sl : ErrSlot) (off : Nat) (w : Word) (s : State) :
    (raiseError e sl off w s).pos = s.pos := rfl
@[simp] theorem raiseError_lastLen (e : ErrorName) (sl : ErrSlot) (off : Nat) (w : Word) (s : State) :
    (raiseError e sl off w s).lastLen = s.lastLen := rfl
@[simp] theorem raiseError_lenOff (e : ErrorName) (sl : ErrSlot) (off : Nat) (w : Word) (s : State) :
    (raiseError e sl off w s).lenOff = s.lenOff := rfl
@[simp] theorem raiseError_blkLen (e : ErrorName) (sl : ErrSlot) (off : Nat) (w : Word) (s : State) :
    (raiseError e sl off w s).blkLen = s.blkLen := rfl
@[simp] theorem raiseError_widx (e : ErrorName) (sl : ErrSlot) (off : Nat) (w : Word) (s : State) :
    (raiseError e sl off w s).widx = s.widx := rfl
@[simp] theorem raiseError_blkBase (e : ErrorName) (sl : ErrSlot) (off : Nat) (w : Word) (s : State) :
    (raiseError e sl off w s).blkBase = s.blkBase := rfl
@[simp] theorem raiseError_buf (e : ErrorName) (sl : ErrSlot) (off : Nat) (w : Word) (s : State) :
    (raiseError e sl off w s).buf = s.buf := rfl
@[simp] theorem raiseError_ovf (e : ErrorName) (sl : ErrSlot) (off : Nat) (w : Word) (s : State) :
    (raiseError e sl off w s).ovf = s.ovf := rfl
@[simp] theorem raiseError_raw (e : ErrorName) (sl : ErrSlot) (off : Nat) (w : Word) (s : State) :
    (raiseError e sl off w s).raw = s.raw := rfl
@[simp] theorem raiseError_tpb (e : ErrorName) (sl : ErrSlot) (off : Nat) (w : Word) (s : State) :
    (raiseError e sl off w s).tpb = s.tpb := rfl
@[simp] theorem raiseError_pend (e : ErrorName) (sl : ErrSlot) (off : Nat) (w : Word) (s : State) :
    (raiseError e sl off w s).pend = [] := rfl
@[simp] theorem raiseError_blocks (e : ErrorName) (sl : ErrSlot) (off : Nat) (w : Word) (s : State) :
    (raiseError e sl off w s).blocks = s.blocks := rfl
@[simp] theorem raiseError_residual (e : ErrorName) (sl : ErrSlot) (off : Nat) (w : Word) (s : State) :
    (raiseError e sl off w s).residual = s.residual := rfl
@[simp] theorem raiseError_err (e : ErrorName) (sl : ErrSlot) (off : Nat) (w : Word) (s : State) :
    (raiseError e sl off w s).err = { code := e.code, slot := sl, block := s.bcount, offset := off, word := w, settled := e.settled sl } := rfl
@[simp] theorem raiseError_bcount (e : ErrorName) (sl : ErrSlot) (off : Nat) (w : Word) (s : State) : (raiseError e sl off w s).bcount = s.bcount := rfl

/-! ### `openBlock` -/

@[simp] theorem openBlock_host (L : Word) (base : Nat) (bs : List Byte) (s : State) :
    (openBlock L base bs s).host = s.host := rfl
@[simp] theorem openBlock_input (L : Word) (base : Nat) (bs : List Byte) (s : State) :
    (openBlock L base bs s).input = s.input := rfl
@[simp] theorem openBlock_phase (L : Word) (base : Nat) (bs : List Byte) (s : State) :
    (openBlock L base bs s).phase = .desc := rfl
@[simp] theorem openBlock_pos (L : Word) (base : Nat) (bs : List Byte) (s : State) :
    (openBlock L base bs s).pos = s.pos := rfl
@[simp] theorem openBlock_lastLen (L : Word) (base : Nat) (bs : List Byte) (s : State) :
    (openBlock L base bs s).lastLen = s.lastLen := rfl
@[simp] theorem openBlock_lenOff (L : Word) (base : Nat) (bs : List Byte) (s : State) :
    (openBlock L base bs s).lenOff = s.lenOff := rfl
@[simp] theorem openBlock_blkLen (L : Word) (base : Nat) (bs : List Byte) (s : State) :
    (openBlock L base bs s).blkLen = L := rfl
@[simp] theorem openBlock_widx (L : Word) (base : Nat) (bs : List Byte) (s : State) :
    (openBlock L base bs s).widx = 0 := rfl
@[simp] theorem openBlock_blkBase (L : Word) (base : Nat) (bs : List Byte) (s : State) :
    (openBlock L base bs s).blkBase = base := rfl
@[simp] theorem openBlock_buf (L : Word) (base : Nat) (bs : List Byte) (s : State) :
    (openBlock L base bs s).buf = wordsOf bs := rfl
@[simp] theorem openBlock_ovf (L : Word) (base : Nat) (bs : List Byte) (s : State) :
    (openBlock L base bs s).ovf = 0 := rfl
@[simp] theorem openBlock_raw (L : Word) (base : Nat) (bs : List Byte) (s : State) :
    (openBlock L base bs s).raw = s.raw := rfl
@[simp] theorem openBlock_tpb (L : Word) (base : Nat) (bs : List Byte) (s : State) :
    (openBlock L base bs s).tpb = s.tpb := rfl
@[simp] theorem openBlock_pend (L : Word) (base : Nat) (bs : List Byte) (s : State) :
    (openBlock L base bs s).pend = [] := rfl
@[simp] theorem openBlock_blocks (L : Word) (base : Nat) (bs : List Byte) (s : State) :
    (openBlock L base bs s).blocks = s.blocks := rfl
@[simp] theorem openBlock_residual (L : Word) (base : Nat) (bs : List Byte) (s : State) :
    (openBlock L base bs s).residual = s.residual := rfl
@[simp] theorem openBlock_err (L : Word) (base : Nat) (bs : List Byte) (s : State) :
    (openBlock L base bs s).err = s.err := rfl
@[simp] theorem openBlock_bcount (L : Word) (base : Nat) (bs : List Byte) (s : State) : (openBlock L base bs s).bcount = s.bcount := rfl

/-! ### `commitStep` -/

@[simp] theorem commitStep_host (s : State) : (commitStep s).host = s.host := rfl
@[simp] theorem commitStep_input (s : State) : (commitStep s).input = s.input := rfl
@[simp] theorem commitStep_phase (s : State) : (commitStep s).phase = .len := rfl
@[simp] theorem commitStep_pos (s : State) : (commitStep s).pos = s.pos := rfl
@[simp] theorem commitStep_lastLen (s : State) : (commitStep s).lastLen = s.lastLen := rfl
@[simp] theorem commitStep_lenOff (s : State) : (commitStep s).lenOff = s.lenOff := rfl
@[simp] theorem commitStep_blkLen (s : State) : (commitStep s).blkLen = s.blkLen := rfl
@[simp] theorem commitStep_widx (s : State) : (commitStep s).widx = s.widx := rfl
@[simp] theorem commitStep_blkBase (s : State) : (commitStep s).blkBase = s.blkBase := rfl
@[simp] theorem commitStep_buf (s : State) : (commitStep s).buf = s.buf := rfl
@[simp] theorem commitStep_ovf (s : State) : (commitStep s).ovf = s.ovf := rfl
@[simp] theorem commitStep_raw (s : State) : (commitStep s).raw = s.raw := rfl
@[simp] theorem commitStep_tpb (s : State) : (commitStep s).tpb = s.tpb := rfl
@[simp] theorem commitStep_pend (s : State) : (commitStep s).pend = [] := rfl
@[simp] theorem commitStep_blocks (s : State) :
    (commitStep s).blocks = s.blocks ++ [{ rawMode := s.raw, timePerBin := s.tpb, events := s.pend }] := rfl
@[simp] theorem commitStep_residual (s : State) : (commitStep s).residual = s.residual := rfl
@[simp] theorem commitStep_err (s : State) : (commitStep s).err = s.err := rfl
@[simp] theorem commitStep_bcount (s : State) : (commitStep s).bcount = s.bcount + 1 := by simp [State.bcount]

/-! ### `resetCommand` -/

@[simp] theorem resetCommand_host (s : State) : (resetCommand s).host = s.host := rfl
@[simp] theorem resetCommand_input (s : State) : (resetCommand s).input = State.reset.input := rfl
@[simp] theorem resetCommand_phase (s : State) : (resetCommand s).phase = State.reset.phase := rfl
@[simp] theorem resetCommand_pos (s : State) : (resetCommand s).pos = State.reset.pos := rfl
@[simp] theorem resetCommand_lastLen (s : State) : (resetCommand s).lastLen = State.reset.lastLen := rfl
@[simp] theorem resetCommand_lenOff (s : State) : (resetCommand s).lenOff = State.reset.lenOff := rfl
@[simp] theorem resetCommand_blkLen (s : State) : (resetCommand s).blkLen = State.reset.blkLen := rfl
@[simp] theorem resetCommand_widx (s : State) : (resetCommand s).widx = State.reset.widx := rfl
@[simp] theorem resetCommand_blkBase (s : State) : (resetCommand s).blkBase = State.reset.blkBase := rfl
@[simp] theorem resetCommand_buf (s : State) : (resetCommand s).buf = State.reset.buf := rfl
@[simp] theorem resetCommand_ovf (s : State) : (resetCommand s).ovf = State.reset.ovf := rfl
@[simp] theorem resetCommand_raw (s : State) : (resetCommand s).raw = State.reset.raw := rfl
@[simp] theorem resetCommand_tpb (s : State) : (resetCommand s).tpb = State.reset.tpb := rfl
@[simp] theorem resetCommand_pend (s : State) : (resetCommand s).pend = State.reset.pend := rfl
@[simp] theorem resetCommand_blocks (s : State) : (resetCommand s).blocks = State.reset.blocks := rfl
@[simp] theorem resetCommand_residual (s : State) : (resetCommand s).residual = State.reset.residual := rfl
@[simp] theorem resetCommand_err (s : State) : (resetCommand s).err = State.reset.err := rfl
@[simp] theorem resetCommand_bcount (s : State) : (resetCommand s).bcount = 0 := rfl

/-! ### `insideBlock` -/

@[simp] theorem insideBlock_host (p : Phase) (i : Nat) (ws : List Word) (s : State) :
    (insideBlock p i ws s).host = [] := rfl
@[simp] theorem insideBlock_input (p : Phase) (i : Nat) (ws : List Word) (s : State) :
    (insideBlock p i ws s).input = some (streamOf (BitVec.ofNat 32 ws.length :: ws)) := rfl
@[simp] theorem insideBlock_phase (p : Phase) (i : Nat) (ws : List Word) (s : State) :
    (insideBlock p i ws s).phase = p := rfl
@[simp] theorem insideBlock_pos (p : Phase) (i : Nat) (ws : List Word) (s : State) :
    (insideBlock p i ws s).pos = 4 + 4 * ws.length := rfl
@[simp] theorem insideBlock_lastLen (p : Phase) (i : Nat) (ws : List Word) (s : State) :
    (insideBlock p i ws s).lastLen = some (BitVec.ofNat 32 ws.length) := rfl
@[simp] theorem insideBlock_lenOff (p : Phase) (i : Nat) (ws : List Word) (s : State) :
    (insideBlock p i ws s).lenOff = 0 := rfl
@[simp] theorem insideBlock_blkLen (p : Phase) (i : Nat) (ws : List Word) (s : State) :
    (insideBlock p i ws s).blkLen = BitVec.ofNat 32 ws.length := rfl
@[simp] theorem insideBlock_widx (p : Phase) (i : Nat) (ws : List Word) (s : State) :
    (insideBlock p i ws s).widx = i := rfl
@[simp] theorem insideBlock_blkBase (p : Phase) (i : Nat) (ws : List Word) (s : State) :
    (insideBlock p i ws s).blkBase = 4 := rfl
@[simp] theorem insideBlock_buf (p : Phase) (i : Nat) (ws : List Word) (s : State) :
    (insideBlock p i ws s).buf = ws := rfl
@[simp] theorem insideBlock_ovf (p : Phase) (i : Nat) (ws : List Word) (s : State) :
    (insideBlock p i ws s).ovf = s.ovf := rfl
@[simp] theorem insideBlock_raw (p : Phase) (i : Nat) (ws : List Word) (s : State) :
    (insideBlock p i ws s).raw = s.raw := rfl
@[simp] theorem insideBlock_tpb (p : Phase) (i : Nat) (ws : List Word) (s : State) :
    (insideBlock p i ws s).tpb = s.tpb := rfl
@[simp] theorem insideBlock_pend (p : Phase) (i : Nat) (ws : List Word) (s : State) :
    (insideBlock p i ws s).pend = s.pend := rfl
@[simp] theorem insideBlock_blocks (p : Phase) (i : Nat) (ws : List Word) (s : State) :
    (insideBlock p i ws s).blocks = s.blocks := rfl
@[simp] theorem insideBlock_residual (p : Phase) (i : Nat) (ws : List Word) (s : State) :
    (insideBlock p i ws s).residual = s.residual := rfl
@[simp] theorem insideBlock_err (p : Phase) (i : Nat) (ws : List Word) (s : State) :
    (insideBlock p i ws s).err = s.err := rfl
@[simp] theorem insideBlock_bcount (p : Phase) (i : Nat) (ws : List Word) (s : State) : (insideBlock p i ws s).bcount = s.bcount := rfl

/-! ### The reset state (10_state.md R43) -/

@[simp] theorem reset_host : State.reset.host = [] := rfl
@[simp] theorem reset_input : State.reset.input = none := rfl
@[simp] theorem reset_phase : State.reset.phase = .idle := rfl
@[simp] theorem reset_pos : State.reset.pos = 0 := rfl
@[simp] theorem reset_lastLen : State.reset.lastLen = none := rfl
@[simp] theorem reset_lenOff : State.reset.lenOff = 0 := rfl
@[simp] theorem reset_blkLen : State.reset.blkLen = 0 := rfl
@[simp] theorem reset_widx : State.reset.widx = 0 := rfl
@[simp] theorem reset_blkBase : State.reset.blkBase = 0 := rfl
@[simp] theorem reset_buf : State.reset.buf = [] := rfl
@[simp] theorem reset_ovf : State.reset.ovf = 0 := rfl
@[simp] theorem reset_raw : State.reset.raw = false := rfl
@[simp] theorem reset_tpb : State.reset.tpb = 0 := rfl
@[simp] theorem reset_pend : State.reset.pend = [] := rfl
@[simp] theorem reset_blocks : State.reset.blocks = [] := rfl
@[simp] theorem reset_residual : State.reset.residual = 0 := rfl
@[simp] theorem reset_err : State.reset.err = ErrorRecord.reset := rfl

/-! ### The bound on the steps left -/

theorem unread_of_input {s : State} {m : Memory} (h : s.input = some m) : s.unread = m.length - s.pos := by
  simp [State.unread, h]

theorem stepsLeft_len {s : State} (h : s.phase = .len) : s.stepsLeft = s.unread / 2 + 3 := by
  simp [State.stepsLeft, h]

theorem stepsLeft_body {s : State} (h : s.phase = .body) : s.stepsLeft = s.unread / 2 + 4 := by
  simp [State.stepsLeft, h]

theorem stepsLeft_words {s : State} (h : s.phase = .desc ∨ s.phase = .hdr ∨ s.phase = .evt) :
    s.stepsLeft = s.blkLen.toNat - s.widx + s.unread / 2 + 4 := by
  rcases h with h | h | h <;> simp [State.stepsLeft, h]

theorem stepsLeft_commit {s : State} (h : s.phase = .commit) : s.stepsLeft = s.unread / 2 + 4 := by
  simp [State.stepsLeft, h]

theorem stepsLeft_check {s : State} (h : s.phase = .check) : s.stepsLeft = 1 := by
  simp [State.stepsLeft, h]

theorem stepsLeft_quiescent {s : State} (h : s.phase.quiescent = true) : s.stepsLeft = 0 := by
  cases hp : s.phase <;> simp_all [State.stepsLeft, Phase.quiescent]

end Sys2Proof.Machine
end

