-- ==== Sys2Proof/Laws/Ops.lean ====
section
/-! SUPPORT. What the shared operations do: the input primitives, the word cursor, error entry. -/

namespace Sys2Proof.Machine

/-! ### Input -/

@[simp] theorem Memory.holds_iff (m : Memory) (a n : Nat) : m.holds a n = true ↔ a + n ≤ m.length := by
  simp [Memory.holds]

@[simp] theorem Memory.holds_false_iff (m : Memory) (a n : Nat) : m.holds a n = false ↔ m.length < a + n := by
  simp [Memory.holds]

theorem Memory.length_read {m : Memory} {a n : Nat} (h : a + n ≤ m.length) : (m.read a n).length = n := by
  simp only [Memory.read, List.length_take, List.length_drop]; omega

theorem Memory.getElem?_read {m : Memory} {a n i : Nat} (h : i < n) : (m.read a n)[i]? = m[a + i]? := by
  simp [Memory.read, h, List.getElem?_drop]

/-- Every input, written as cells, has the canonical form, and its cells give it back. -/
theorem Memory.wf_cells (m : Memory) : Memory.wf m.cells = true := by
  simp [Memory.wf, Memory.cells, List.map_map, Function.comp_def]
  exact List.range_eq_range'.symm

theorem Memory.cells_bytes (m : Memory) : m.cells.map Prod.snd = m := by
  simp [Memory.cells, List.map_map, Function.comp_def]

theorem readExact_unbound {k : Nat} {s : State} (h : s.input = none) : readExact k s = .unbound := by
  simp [readExact, h]

theorem readExact_short {k : Nat} {s : State} {m : Memory} (h : s.input = some m) (hs : m.length < s.pos + k) :
    readExact k s = .short := by
  simp only [readExact, h]
  rw [if_neg]
  simp only [Memory.holds_iff]; omega

theorem readExact_bytes {k : Nat} {s : State} {m : Memory} (h : s.input = some m) (hs : s.pos + k ≤ m.length) :
    readExact k s = .bytes (m.read s.pos k) { s with pos := s.pos + k } := by
  simp only [readExact, h]
  rw [if_pos]
  simpa using hs

/-! ### Words of the input -/

theorem wordsOf_length : ∀ bs : List Byte, (wordsOf bs).length = bs.length / 4
  | b0 :: b1 :: b2 :: b3 :: rest => by
    have ih := wordsOf_length rest
    simp only [wordsOf, List.length_cons, ih]; omega
  | [] => by simp [wordsOf]
  | [_] => by simp [wordsOf]
  | [_, _] => by simp [wordsOf]
  | [_, _, _] => by simp [wordsOf]

theorem wordsOf_drop : ∀ (i : Nat) (bs : List Byte), wordsOf (bs.drop (4 * i)) = (wordsOf bs).drop i
  | 0, _ => by simp
  | i + 1, b0 :: b1 :: b2 :: b3 :: rest => by
    simpa [wordsOf, show 4 * (i + 1) = 4 * i + 1 + 1 + 1 + 1 by omega] using wordsOf_drop i rest
  | i + 1, [] => by simp [wordsOf]
  | i + 1, [_] => by simp [wordsOf, show 4 * (i + 1) = 4 * i + 3 + 1 by omega]
  | i + 1, [_, _] => by simp [wordsOf, show 4 * (i + 1) = 4 * i + 2 + 1 + 1 by omega]
  | i + 1, [_, _, _] => by simp [wordsOf, show 4 * (i + 1) = 4 * i + 1 + 1 + 1 + 1 by omega]

theorem wordsOf_head?_take : ∀ (n : Nat) (bs : List Byte), 4 ≤ n → (wordsOf (bs.take n)).head? = (wordsOf bs).head?
  | 0, _, h => by omega
  | 1, _, h => by omega
  | 2, _, h => by omega
  | 3, _, h => by omega
  | n + 4, b0 :: b1 :: b2 :: b3 :: rest, _ => by simp [wordsOf]
  | n + 4, [], _ => by simp
  | n + 4, [_], _ => by simp
  | n + 4, [_, _], _ => by simp
  | n + 4, [_, _, _], _ => by simp

theorem Memory.wordAt_eq {m : Memory} {a : Nat} (h : a + 4 ≤ m.length) :
    m.wordAt a = (wordsOf (m.drop a)).head? := by
  simp only [Memory.wordAt, Memory.holds_iff, h, if_true, Memory.read]
  exact wordsOf_head?_take 4 _ (Nat.le_refl 4)

theorem Memory.wordAt_none {m : Memory} {a : Nat} (h : m.length < a + 4) : m.wordAt a = none := by
  simp only [Memory.wordAt, Memory.holds_iff]
  rw [if_neg (by omega)]

theorem Memory.wordAt_isSome_iff (m : Memory) (a : Nat) : (m.wordAt a).isSome ↔ a + 4 ≤ m.length := by
  by_cases h : a + 4 ≤ m.length
  · rw [Memory.wordAt_eq h]
    have := wordsOf_length (m.drop a)
    simp only [List.length_drop] at this
    simp only [h, iff_true]
    cases hw : wordsOf (m.drop a) with
    | nil => simp [hw] at this; omega
    | cons w ws => rfl
  · simp [Memory.wordAt_none (by omega : m.length < a + 4), h]

theorem Memory.wordAt_some_bound {m : Memory} {a : Nat} {w : Word} (h : m.wordAt a = some w) :
    a + 4 ≤ m.length := (m.wordAt_isSome_iff a).1 (by simp [h])

/-- The words of a fetched body are the words of the input at its offsets (20_memory.md R64). -/
theorem wordsOf_read_getElem? {m : Memory} {base L i : Nat} (h : base + 4 * L ≤ m.length) (hi : i < L) :
    (wordsOf (m.read base (4 * L)))[i]? = m.wordAt (base + 4 * i) := by
  rw [Memory.wordAt_eq (by omega)]
  have hd : (wordsOf (m.read base (4 * L)))[i]? = ((wordsOf (m.read base (4 * L))).drop i).head? := by
    simp [List.head?_eq_getElem?, List.getElem?_drop]
  rw [hd, ← wordsOf_drop]
  have : (m.read base (4 * L)).drop (4 * i) = (m.drop (base + 4 * i)).take (4 * L - 4 * i) := by
    simp [Memory.read, List.drop_take, List.drop_drop]
  rw [this, wordsOf_head?_take _ _ (by omega)]

theorem wordsOf_read_length {m : Memory} {base L : Nat} (h : base + 4 * L ≤ m.length) :
    (wordsOf (m.read base (4 * L))).length = L := by
  rw [wordsOf_length, Memory.length_read h]; omega

/-! ### The word cursor and error entry -/

theorem advance_more {s : State} (h : s.widx + 1 < s.blkLen.toNat) : (advance s).phase = .evt := by simp [h]

theorem advance_last {s : State} (h : s.blkLen.toNat ≤ s.widx + 1) : (advance s).phase = .commit := by
  simp [Nat.not_lt.2 h]

/-- No error but the name for "no error" has code 0 (60_exceptions.md R220). -/
theorem code_eq_zero_iff (e : ErrorName) : e.code = 0 ↔ e = .none := by cases e <;> decide

theorem ofCode_code (e : ErrorName) : ErrorName.ofCode e.code = some e := by cases e <;> decide

end Sys2Proof.Machine
end

