-- ==== Sys2Proof/Laws/Exec.lean ====
section
/-! SUPPORT. What each meaning does, said once: the three framing steps, and one lemma per word class of a block. -/

namespace Sys2Proof.Machine

/-! ### The framing steps -/

theorem lenStep_unbound {w : Word} {s : State} (h : s.input = none) : lenStep w s = .fault .noInputBound := by
  simp [lenStep, readExact_unbound h]

theorem lenStep_short {w : Word} {s : State} {m : Memory} (h : s.input = some m) (hs : m.length < s.pos + 4) :
    lenStep w s = .next (endOfStream s) := by
  simp [lenStep, readExact_short h hs]

theorem lenStep_read {w : Word} {s : State} {m : Memory} (h : s.input = some m) (hs : s.pos + 4 ≤ m.length) :
    lenStep w s = .next { s with pos := s.pos + 4, lastLen := some w, lenOff := s.pos, phase := .body } := by
  simp [lenStep, readExact_bytes h hs]

theorem bodyStep_unbound {L : Word} {s : State} (h : s.input = none) : bodyStep L s = .fault .noInputBound := by
  simp [bodyStep, readExact_unbound h]

theorem bodyStep_short {L : Word} {s : State} {m : Memory} (h : s.input = some m)
    (hs : m.length < s.pos + 4 * L.toNat) : bodyStep L s = .next (endOfStream s) := by
  simp [bodyStep, readExact_short h hs]

theorem bodyStep_tooShort {L : Word} {s : State} {m : Memory} (h : s.input = some m)
    (hs : s.pos + 4 * L.toNat ≤ m.length) (hL : L.toNat < 2) :
    bodyStep L s =
      .next (raiseError .shortBlockLength .length s.lenOff L { s with pos := s.pos + 4 * L.toNat }) := by
  simp [bodyStep, readExact_bytes h hs, hL]

theorem bodyStep_open {L : Word} {s : State} {m : Memory} (h : s.input = some m)
    (hs : s.pos + 4 * L.toNat ≤ m.length) (hL : 2 ≤ L.toNat) :
    bodyStep L s =
      .next (openBlock L s.pos (m.read s.pos (4 * L.toNat)) { s with pos := s.pos + 4 * L.toNat }) := by
  simp [bodyStep, readExact_bytes h hs, Nat.not_lt.2 hL]

theorem checkStep_unbound {t : Option Word} {s : State} (h : s.input = none) :
    checkStep t s = .fault .noInputBound := by
  simp [checkStep, h]

theorem checkStep_none {s : State} {m : Memory} (h : s.input = some m) :
    checkStep none s = .next (raiseError .noLengthWord .length 0 0 { s with residual := m.length - s.pos }) := by
  simp [checkStep, h]

theorem checkStep_match {T : Word} {s : State} {m : Memory} (h : s.input = some m) (hT : T.toNat = s.bcount) :
    checkStep (some T) s = .next { s with residual := m.length - s.pos, phase := .done } := by
  simp [checkStep, h, hT, State.goto]

theorem checkStep_mismatch {T : Word} {s : State} {m : Memory} (h : s.input = some m) (hT : T.toNat ≠ s.bcount) :
    checkStep (some T) s =
      .next (raiseError .trailerMismatch .trailer s.lenOff T { s with residual := m.length - s.pos }) := by
  simp [checkStep, h, hT]

/-! ### The word classes, one lemma each -/

theorem exec_len_body {L : Word} {s : State} (h : s.phase = .body) : exec (.len L) s = bodyStep L s := by
  simp [exec, execLen, h]

theorem exec_len_len {L : Word} {s : State} (h : s.phase ≠ .body) : exec (.len L) s = lenStep L s := by
  simp [exec, execLen, h]

theorem exec_trailer_len {T : Word} {s : State} (h : s.phase = .len) : exec (.trailer T) s = lenStep T s := by
  simp [exec, execTrailer, h]

theorem exec_trailer_body {T : Word} {s : State} (h : s.phase = .body) : exec (.trailer T) s = bodyStep T s := by
  simp [exec, execTrailer, h]

theorem exec_trailer_check {T : Word} {s : State} (h : s.phase = .check) :
    exec (.trailer T) s = checkStep (some T) s := by
  simp [exec, execTrailer, h]

theorem exec_desc (r : Bool) (t : BitVec 24) (s : State) :
    exec (.desc r t) s = .next { s with raw := r, tpb := t, widx := s.widx + 1, phase := .hdr } := rfl

theorem exec_descBad (w : Word) (s : State) :
    exec (.descBad w) s = .next (raiseError .invalidDescriptor .descriptor s.wordOffset w s) := rfl

theorem exec_hdr (d : BitVec 31) (s : State) : exec (.hdr d) s = .next (advance s) := rfl

theorem exec_hdrBad (d : BitVec 31) (s : State) :
    exec (.hdrBad d) s = .next (raiseError .invalidEventRecord .header s.wordOffset (encode (.hdrBad d)) s) := rfl

theorem exec_evtRsv (o g : Bool) (c : BitVec 5) (p : BitVec 24) (s : State) :
    exec (.evtRsv o g c p) s =
      .next (raiseError .invalidEventRecord .event s.wordOffset (encode (.evtRsv o g c p)) s) := rfl

theorem exec_ovf (ig : BitVec 6) (v : BitVec 24) (s : State) :
    exec (.ovf ig v) s = .next (advance { s with ovf := v }) := rfl

theorem exec_evtLowch (g : Bool) (c : BitVec 5) (t : BitVec 24) (s : State) :
    exec (.evtLowch g c t) s =
      .next (raiseError .lowChannel .event s.wordOffset (encode (.evtLowch g c t)) s) := rfl

theorem exec_evt (g : Bool) (c : BitVec 5) (t : BitVec 24) (s : State) :
    exec (.evt g c t) s = .next (advance { s with pend := s.pend ++ [eventOf s.ovf g c t] }) := rfl

end Sys2Proof.Machine
end

