-- ==== Sys2Proof/Laws/PerInstr.lean ====
section
/-! SUPPORT. The family RowMatch: the word of every well-formed instruction satisfies the condition
`(w AND mask) = match` of its own row of 30_encoding.md R100. -/

namespace Sys2Proof.Laws.RowMatch

/-- The mask and the pattern of the row of `i` hold for its word. -/
def Statement (i : Instr) : Prop :=
  i.wellFormed = true →
    ∀ r ∈ tableRows, r.order = i.tableOrder → encode i &&& r.mask = r.pattern

/-- No two rows have the same order. -/
theorem row_unique : ∀ r ∈ tableRows, ∀ r' ∈ tableRows, r.order = r'.order → r = r' := by decide

/-- A statement about one row is a statement about its mask and pattern. -/
theorem of_row {i : Instr} (row : TableRow) (hmem : row ∈ tableRows) (horder : row.order = i.tableOrder)
    (h : i.wellFormed = true → encode i &&& row.mask = row.pattern) : Statement i := by
  intro hw r hr ho
  rw [row_unique r hr row hmem (ho.trans horder.symm)]
  exact h hw

theorem len (L : Word) : Statement (.len L) :=
  of_row { order := 1, slot := .length, mask := 0x00000000#32, pattern := 0x00000000#32 } (by decide) rfl
    fun _ => by simp

theorem trailer (T : Word) : Statement (.trailer T) :=
  of_row { order := 2, slot := .length, mask := 0x00000000#32, pattern := 0x00000000#32 } (by decide) rfl
    fun _ => by simp

theorem desc (rawMode : Bool) (timePerBin : BitVec 24) : Statement (.desc rawMode timePerBin) := by
  refine of_row { order := 3, slot := .descriptor, mask := 0xFB000000#32, pattern := 0xC1000000#32 }
    (by decide) rfl fun _ => ?_
  apply BitVec.eq_of_getLsbD_eq
  intro i hi
  rw [BitVec.getLsbD_and, encode_desc_getLsbD]
  interval_cases i <;> simp

theorem descBad (w : Word) : Statement (.descBad w) :=
  of_row { order := 4, slot := .descriptor, mask := 0x00000000#32, pattern := 0x00000000#32 } (by decide) rfl
    fun _ => by simp

theorem hdr (d : BitVec 31) : Statement (.hdr d) := by
  refine of_row { order := 5, slot := .header, mask := 0x80000000#32, pattern := 0x00000000#32 }
    (by decide) rfl fun _ => ?_
  apply BitVec.eq_of_getLsbD_eq
  intro i hi
  rw [BitVec.getLsbD_and, encode_hdr_getLsbD]
  interval_cases i <;> simp

theorem hdrBad (d : BitVec 31) : Statement (.hdrBad d) := by
  refine of_row { order := 6, slot := .header, mask := 0x80000000#32, pattern := 0x80000000#32 }
    (by decide) rfl fun _ => ?_
  apply BitVec.eq_of_getLsbD_eq
  intro i hi
  rw [BitVec.getLsbD_and, encode_hdrBad_getLsbD]
  interval_cases i <;> simp

theorem evtRsv (o g : Bool) (c : BitVec 5) (p : BitVec 24) : Statement (.evtRsv o g c p) := by
  refine of_row { order := 7, slot := .event, mask := 0x80000000#32, pattern := 0x80000000#32 }
    (by decide) rfl fun _ => ?_
  apply BitVec.eq_of_getLsbD_eq
  intro i hi
  rw [BitVec.getLsbD_and, encode_evtRsv_getLsbD]
  interval_cases i <;> simp

theorem ovf (ig : BitVec 6) (v : BitVec 24) : Statement (.ovf ig v) := by
  refine of_row { order := 8, slot := .event, mask := 0xC0000000#32, pattern := 0x40000000#32 }
    (by decide) rfl fun _ => ?_
  apply BitVec.eq_of_getLsbD_eq
  intro i hi
  rw [BitVec.getLsbD_and, encode_ovf_getLsbD]
  interval_cases i <;> simp

/-- A channel code below 2 has its four high bits clear. -/
theorem lowCode_bits :
    ∀ k : BitVec 5, k.toNat < 2 → k[1] = false ∧ k[2] = false ∧ k[3] = false ∧ k[4] = false := by decide

theorem evtLowch (g : Bool) (c : BitVec 5) (t : BitVec 24) : Statement (.evtLowch g c t) := by
  refine of_row { order := 9, slot := .event, mask := 0xDE000000#32, pattern := 0x00000000#32 }
    (by decide) rfl fun hw => ?_
  obtain ⟨h1, h2, h3, h4⟩ := lowCode_bits c (by simpa [Instr.wellFormed] using hw)
  apply BitVec.eq_of_getLsbD_eq
  intro i hi
  rw [BitVec.getLsbD_and, encode_evtLowch_getLsbD, encode_evt_getLsbD]
  interval_cases i <;> simp [h1, h2, h3, h4]

theorem evt (g : Bool) (c : BitVec 5) (t : BitVec 24) : Statement (.evt g c t) := by
  refine of_row { order := 10, slot := .event, mask := 0xC0000000#32, pattern := 0x00000000#32 }
    (by decide) rfl fun _ => ?_
  apply BitVec.eq_of_getLsbD_eq
  intro i hi
  rw [BitVec.getLsbD_and, encode_evt_getLsbD]
  interval_cases i <;> simp

end Sys2Proof.Laws.RowMatch
end

