-- ==== Sys2Proof/Laws/Step.lean ====
section
/-! SUPPORT. What one step can do, said once: `DecoderMove` lists the decoder's moves, and `decoderStep_move` says
that a step of the decoder is one of them. -/

namespace Sys2Proof.Machine

/-! ### Whose move it is -/

theorem step_nil {s : State} (h : s.host = []) : step s = decoderStep s := by
  simp [step, moveNext, h]

theorem step_start {s : State} {m : Memory} {rest : List HostMove} (h : s.host = .start m :: rest) :
    step s = startCommand m { s with host := rest } := by
  simp [step, moveNext, h]

theorem step_reset {s : State} {rest : List HostMove} (h : s.host = .reset :: rest) :
    step s = .next { State.reset with host := rest } := by
  simp [step, moveNext, h, resetCommand]

theorem step_wait {s : State} {rest : List HostMove} (h : s.host = .wait :: rest) :
    step s = waitMove { s with host := rest } := by
  simp [step, moveNext, h]

theorem step_awaitEnd {s : State} {rest : List HostMove} (h : s.host = .awaitEnd :: rest) :
    step s = if s.phase.ended then .next { s with host := rest } else decoderStep s := by
  simp [step, moveNext, h]

/-! ### The decoder's moves -/

/-- A length word recorded (40_stream_framing.md R131). -/
def recordLength (w : Word) (s : State) : State :=
  { s with pos := s.pos + 4, lastLen := some w, lenOff := s.pos, phase := .body }

/-- The moves of the decoder, one constructor per branch of the spec's pseudocode. -/
inductive DecoderMove (s : State) : State → Prop where
  | lenShort (m : Memory) : s.phase = .len → s.input = some m → m.length < s.pos + 4 →
      DecoderMove s (endOfStream s)
  | lenWord (m : Memory) (w : Word) : s.phase = .len → s.input = some m → m.wordAt s.pos = some w →
      DecoderMove s (recordLength w s)
  | bodyShort (m : Memory) (L : Word) : s.phase = .body → s.input = some m → s.lastLen = some L →
      m.length < s.pos + 4 * L.toNat → DecoderMove s (endOfStream s)
  | bodyTooShort (m : Memory) (L : Word) : s.phase = .body → s.input = some m → s.lastLen = some L →
      s.pos + 4 * L.toNat ≤ m.length → L.toNat < 2 →
      DecoderMove s (raiseError .shortBlockLength .length s.lenOff L { s with pos := s.pos + 4 * L.toNat })
  | bodyOpen (m : Memory) (L : Word) : s.phase = .body → s.input = some m → s.lastLen = some L →
      s.pos + 4 * L.toNat ≤ m.length → 2 ≤ L.toNat →
      DecoderMove s
        (openBlock L s.pos (m.read s.pos (4 * L.toNat)) { s with pos := s.pos + 4 * L.toNat })
  | desc (w : Word) : s.phase = .desc → s.buf[s.widx]? = some w → descValid w = true →
      DecoderMove s { s with raw := rawModeOf w, tpb := payloadOf w, widx := s.widx + 1, phase := .hdr }
  | descBad (w : Word) : s.phase = .desc → s.buf[s.widx]? = some w → descValid w = false →
      DecoderMove s (raiseError .invalidDescriptor .descriptor s.wordOffset w s)
  | hdr (w : Word) : s.phase = .hdr → s.buf[s.widx]? = some w → reservedHighBit w = false →
      DecoderMove s (advance s)
  | hdrBad (w : Word) : s.phase = .hdr → s.buf[s.widx]? = some w → reservedHighBit w = true →
      DecoderMove s
        (raiseError .invalidEventRecord .header s.wordOffset (encode (.hdrBad (discardedOf w))) s)
  | evtRsv (w : Word) : s.phase = .evt → s.buf[s.widx]? = some w → reservedHighBit w = true →
      DecoderMove s
        (raiseError .invalidEventRecord .event s.wordOffset
          (encode (.evtRsv (overflowFlag w) (gapFlagOf w) (channelCodeOf w) (payloadOf w))) s)
  | ovf (w : Word) : s.phase = .evt → s.buf[s.widx]? = some w → reservedHighBit w = false →
      overflowFlag w = true → DecoderMove s (advance { s with ovf := payloadOf w })
  | evtLowch (w : Word) : s.phase = .evt → s.buf[s.widx]? = some w → reservedHighBit w = false →
      overflowFlag w = false → (channelCodeOf w).toNat < 2 →
      DecoderMove s
        (raiseError .lowChannel .event s.wordOffset
          (encode (.evtLowch (gapFlagOf w) (channelCodeOf w) (payloadOf w))) s)
  | evt (w : Word) : s.phase = .evt → s.buf[s.widx]? = some w → reservedHighBit w = false →
      overflowFlag w = false → 2 ≤ (channelCodeOf w).toNat →
      DecoderMove s
        (advance { s with
          pend := s.pend ++ [eventOf s.ovf (gapFlagOf w) (channelCodeOf w) (payloadOf w)] })
  | commit : s.phase = .commit → DecoderMove s (commitStep s)
  | checkNone (m : Memory) : s.phase = .check → s.input = some m → s.lastLen = none →
      DecoderMove s (raiseError .noLengthWord .length 0 0 { s with residual := m.length - s.pos })
  | checkDone (m : Memory) (T : Word) : s.phase = .check → s.input = some m → s.lastLen = some T →
      T.toNat = s.bcount → DecoderMove s { s with residual := m.length - s.pos, phase := .done }
  | checkMismatch (m : Memory) (T : Word) : s.phase = .check → s.input = some m → s.lastLen = some T →
      T.toNat ≠ s.bcount →
      DecoderMove s
        (raiseError .trailerMismatch .trailer s.lenOff T { s with residual := m.length - s.pos })

/-! ### The decoder's step, phase by phase -/

theorem exec_lengthInstr_len {m : Memory} {b : Nat} {w : Word} {s : State} (h : s.phase = .len) :
    exec (lengthInstr m b w) s = lenStep w s := by
  simp only [lengthInstr, classify, decodeLength]
  split
  · exact exec_len_len (by simp [h])
  · exact exec_trailer_len h

theorem exec_lengthInstr_body {m : Memory} {b : Nat} {w : Word} {s : State} (h : s.phase = .body) :
    exec (lengthInstr m b w) s = bodyStep w s := by
  simp only [lengthInstr, classify, decodeLength]
  split
  · exact exec_len_body h
  · exact exec_trailer_body h

theorem decoderStep_len {s : State} {m : Memory} (hp : s.phase = .len) (hi : s.input = some m) :
    decoderStep s =
      match m.wordAt s.pos with
      | none => .next (endOfStream s)
      | some w => .next (recordLength w s) := by
  simp only [decoderStep, fetch, hp, fetchLength, hi]
  cases hw : m.wordAt s.pos with
  | none => rfl
  | some w => simp only [exec_lengthInstr_len hp, lenStep_read hi (Memory.wordAt_some_bound hw), recordLength]

theorem decoderStep_body {s : State} {m : Memory} {L : Word} (hp : s.phase = .body) (hi : s.input = some m)
    (hl : s.lastLen = some L) : decoderStep s = bodyStep L s := by
  simp only [decoderStep, fetch, hp, fetchLastLength, hi, hl, exec_lengthInstr_body hp]

theorem decoderStep_check {s : State} (hp : s.phase = .check) : decoderStep s = checkStep s.lastLen s := by
  simp only [decoderStep, fetch, hp, fetchTrailer]
  cases hl : s.lastLen with
  | none => rfl
  | some T => exact exec_trailer_check hp

theorem decoderStep_commit {s : State} (hp : s.phase = .commit) : decoderStep s = .next (commitStep s) := by
  simp only [decoderStep, fetch, hp]

theorem decoderStep_quiescent {s : State} (hp : s.phase.quiescent = true) : decoderStep s = .fault .quiescent := by
  cases h : s.phase <;> simp_all [Phase.quiescent, decoderStep, fetch]

theorem decoderStep_desc {s : State} {w : Word} (hp : s.phase = .desc) (hw : s.buf[s.widx]? = some w) :
    decoderStep s = exec (decodeDescriptor w) s := by
  simp only [decoderStep, fetch, hp, blockInstr, hw, classify]

theorem decoderStep_hdr {s : State} {w : Word} (hp : s.phase = .hdr) (hw : s.buf[s.widx]? = some w) :
    decoderStep s = exec (decodeHeader w) s := by
  simp only [decoderStep, fetch, hp, blockInstr, hw, classify]

theorem decoderStep_evt {s : State} {w : Word} (hp : s.phase = .evt) (hw : s.buf[s.widx]? = some w) :
    decoderStep s = exec (decodeEvent w) s := by
  simp only [decoderStep, fetch, hp, blockInstr, hw, classify]

/-- In a block phase the decoder steps only where the block has a word at the cursor. -/
theorem decoderStep_blockWord {s s' : State} (hp : s.phase = .desc ∨ s.phase = .hdr ∨ s.phase = .evt)
    (h : decoderStep s = .next s') : ∃ w, s.buf[s.widx]? = some w := by
  cases hw : s.buf[s.widx]? with
  | some w => exact ⟨w, rfl⟩
  | none => rcases hp with hp | hp | hp <;> simp [decoderStep, fetch, hp, blockInstr, hw] at h

/-- Outside COMMIT, IDLE, DONE, ERROR and the block phases the decoder steps only where an input is bound. -/
theorem decoderStep_input {s s' : State} (hp : s.phase = .len ∨ s.phase = .body ∨ s.phase = .check)
    (h : decoderStep s = .next s') : ∃ m, s.input = some m := by
  cases hi : s.input with
  | some m => exact ⟨m, rfl⟩
  | none =>
    rcases hp with hp | hp | hp
    · simp [decoderStep, fetch, hp, fetchLength, hi] at h
    · simp [decoderStep, fetch, hp, fetchLastLength, hi] at h
    · simp [decoderStep_check hp, checkStep_unbound hi] at h

/-- Every step of the decoder is one of the moves of `DecoderMove`. -/
theorem decoderStep_move {s s' : State} (h : decoderStep s = .next s') : DecoderMove s s' := by
  cases hp : s.phase with
  | idle => simp [decoderStep_quiescent (s := s) (by simp [hp, Phase.quiescent])] at h
  | done => simp [decoderStep_quiescent (s := s) (by simp [hp, Phase.quiescent])] at h
  | error => simp [decoderStep_quiescent (s := s) (by simp [hp, Phase.quiescent])] at h
  | commit => rw [decoderStep_commit hp] at h; cases h; exact .commit hp
  | len =>
    obtain ⟨m, hi⟩ := decoderStep_input (.inl hp) h
    rw [decoderStep_len hp hi] at h
    cases hw : m.wordAt s.pos with
    | none =>
      simp only [hw] at h; cases h
      exact .lenShort m hp hi (by
        by_contra hc
        have := (m.wordAt_isSome_iff s.pos).2 (by omega)
        simp [hw] at this)
    | some w => simp only [hw] at h; cases h; exact .lenWord m w hp hi hw
  | body =>
    obtain ⟨m, hi⟩ := decoderStep_input (.inr (.inl hp)) h
    cases hl : s.lastLen with
    | none => simp [decoderStep, fetch, hp, fetchLastLength, hi, hl] at h
    | some L =>
      rw [decoderStep_body hp hi hl] at h
      by_cases hs : s.pos + 4 * L.toNat ≤ m.length
      · by_cases hL : L.toNat < 2
        · rw [bodyStep_tooShort hi hs hL] at h; cases h; exact .bodyTooShort m L hp hi hl hs hL
        · rw [bodyStep_open hi hs (by omega)] at h; cases h; exact .bodyOpen m L hp hi hl hs (by omega)
      · rw [bodyStep_short hi (by omega)] at h; cases h; exact .bodyShort m L hp hi hl (by omega)
  | check =>
    obtain ⟨m, hi⟩ := decoderStep_input (.inr (.inr hp)) h
    rw [decoderStep_check hp] at h
    cases hl : s.lastLen with
    | none => rw [hl, checkStep_none hi] at h; cases h; exact .checkNone m hp hi hl
    | some T =>
      rw [hl] at h
      by_cases hT : T.toNat = s.bcount
      · rw [checkStep_match hi hT] at h; cases h; exact .checkDone m T hp hi hl hT
      · rw [checkStep_mismatch hi hT] at h; cases h; exact .checkMismatch m T hp hi hl hT
  | desc =>
    obtain ⟨w, hw⟩ := decoderStep_blockWord (.inl hp) h
    rw [decoderStep_desc hp hw] at h
    by_cases hv : descValid w = true
    · simp only [decodeDescriptor, hv, if_true, exec_desc] at h; cases h; exact .desc w hp hw hv
    · have hv : descValid w = false := by simpa using hv
      simp only [decodeDescriptor, hv, exec_descBad, Bool.false_eq_true, if_false] at h; cases h
      exact .descBad w hp hw hv
  | hdr =>
    obtain ⟨w, hw⟩ := decoderStep_blockWord (.inr (.inl hp)) h
    rw [decoderStep_hdr hp hw] at h
    by_cases hr : reservedHighBit w = true
    · simp only [decodeHeader, hr, if_true, exec_hdrBad] at h; cases h; exact .hdrBad w hp hw hr
    · have hr : reservedHighBit w = false := by simpa using hr
      simp only [decodeHeader, hr, exec_hdr, Bool.false_eq_true, if_false] at h; cases h
      exact .hdr w hp hw hr
  | evt =>
    obtain ⟨w, hw⟩ := decoderStep_blockWord (.inr (.inr hp)) h
    rw [decoderStep_evt hp hw] at h
    obtain ⟨hr, he⟩ | ⟨hr, ho, he⟩ | ⟨hr, ho, hc, he⟩ | ⟨hr, ho, hc, he⟩ := decodeEvent_cases w
    · rw [he, exec_evtRsv] at h; cases h; exact .evtRsv w hp hw hr
    · rw [he, exec_ovf] at h; cases h; exact .ovf w hp hw hr ho
    · rw [he, exec_evtLowch] at h; cases h; exact .evtLowch w hp hw hr ho hc
    · rw [he, exec_evt] at h; cases h; exact .evt w hp hw hr ho hc

/-- What one step can do: the host's move, or one of the decoder's. -/
theorem step_cases {s s' : State} (h : step s = .next s') :
    (s.host = [] ∧ DecoderMove s s') ∨
      (∃ m rest, s.host = .start m :: rest ∧ s.phase = .idle ∧
        s' = { s with host := rest, input := some m, pos := 0, lastLen := none, lenOff := 0, blocks := [],
                      residual := 0, phase := .len }) ∨
      (∃ rest, s.host = .reset :: rest ∧ s' = { State.reset with host := rest }) ∨
      (∃ rest, s.host = .wait :: rest ∧ s.phase.quiescent = true ∧ s' = { s with host := rest }) ∨
      (∃ rest, s.host = .wait :: rest ∧ s.phase.quiescent = false ∧ DecoderMove { s with host := rest } s') ∨
      (∃ rest, s.host = .awaitEnd :: rest ∧ s.phase.ended = true ∧ s' = { s with host := rest }) ∨
      (∃ rest, s.host = .awaitEnd :: rest ∧ s.phase.ended = false ∧ DecoderMove s s') := by
  cases hh : s.host with
  | nil => rw [step_nil hh] at h; exact .inl ⟨rfl, decoderStep_move h⟩
  | cons a rest =>
    cases a with
    | start m =>
      rw [step_start hh] at h
      unfold startCommand at h
      split at h
      · rename_i hp; cases h; exact .inr (.inl ⟨m, rest, rfl, hp, rfl⟩)
      · cases h
    | reset => rw [step_reset hh] at h; cases h; exact .inr (.inr (.inl ⟨rest, rfl, rfl⟩))
    | wait =>
      rw [step_wait hh] at h
      unfold waitMove at h
      split at h
      · rename_i hq; cases h; exact .inr (.inr (.inr (.inl ⟨rest, rfl, hq, rfl⟩)))
      · rename_i hq
        exact .inr (.inr (.inr (.inr (.inl ⟨rest, rfl, by simpa using hq, decoderStep_move h⟩))))
    | awaitEnd =>
      rw [step_awaitEnd hh] at h
      split at h
      · rename_i hq; cases h; exact .inr (.inr (.inr (.inr (.inr (.inl ⟨rest, rfl, hq, rfl⟩)))))
      · rename_i hq
        exact .inr (.inr (.inr (.inr (.inr (.inr ⟨rest, rfl, by simpa using hq, decoderStep_move h⟩)))))

end Sys2Proof.Machine
end

