-- ==== Sys2Proof/Tests/Slice0.lean ====
section
/-! SUPPORT. Tests by decide, their expected results worked from the spec's tables and vectors (the source is named with
each), and for every statement with hypotheses a witness that meets them. -/

open Sys2Proof Sys2Proof.Machine

namespace Sys2Proof.Tests

/-! ### WellFormed: each check refuses an ill-formed term (41_descriptor.md R160, 43_event_words.md R185, R191) -/

theorem test_wf_descBad_refuses_C1 : (Instr.descBad 0xC1000000#32).wellFormed = false := by decide
theorem test_wf_descBad_refuses_C5 : (Instr.descBad 0xC5FFFFFF#32).wellFormed = false := by decide
theorem test_wf_evtLowch_refuses_2 : (Instr.evtLowch false 2#5 0#24).wellFormed = false := by decide
theorem test_wf_evt_refuses_1 : (Instr.evt true 1#5 0#24).wellFormed = false := by decide
theorem test_wf_boundaries :
    (Instr.descBad 0xC0FFFFFF#32).wellFormed = true ∧ (Instr.descBad 0xC6000000#32).wellFormed = true ∧
    (Instr.evtLowch true 1#5 0#24).wellFormed = true ∧ (Instr.evt false 2#5 0#24).wellFormed = true ∧
    (Instr.evt false 31#5 0#24).wellFormed = true := by decide

/-! ### Decoding: each word written out bit by bit from the tables of 30_encoding.md R92 to R97 -/

theorem test_decode_len :
    classify .length true 0b00000000000000000000000000000111#32 = .len 7#32 := by decide
theorem test_decode_trailer :
    classify .length false 0b10000000000000000000000000000010#32 = .trailer 0x80000002#32 := by decide
/-- 31:27 sync high `11000`, 26 raw mode, 25:24 sync low `01`, 23:0 time per bin. -/
theorem test_decode_desc :
    classify .descriptor false (0b11000_1_01_000000101000001100000001#32) = .desc true 0x028301#24 := by decide
/-- The vectors DS4, DS6, DS7, DS8 of 95_test_vectors.md: one sync bit wrong each. -/
theorem test_decode_descBad :
    classify .descriptor false 0xC0000000#32 = .descBad 0xC0000000#32 ∧
    classify .descriptor false 0xC9000000#32 = .descBad 0xC9000000#32 ∧
    classify .descriptor false 0x41000000#32 = .descBad 0x41000000#32 ∧
    classify .descriptor false 0xE1000000#32 = .descBad 0xE1000000#32 := by decide
theorem test_decode_hdr :
    classify .header false (0b0_1000000000000000000000000000000#32) = .hdr 0x40000000#31 := by decide
theorem test_decode_hdrBad :
    classify .header false (0b1_1000001000000000000000000000000#32) = .hdrBad 0x41000000#31 := by decide
/-- 31 reserved, 30 overflow flag, 29 gap flag, 28:24 channel code, 23:0 payload. -/
theorem test_decode_evtRsv :
    classify .event false (0b1_0_1_01000_000000000000000000000011#32) = .evtRsv false true 8#5 3#24 := by decide
theorem test_decode_ovf :
    classify .event false (0b0_1_1_00010_000000000000000000000101#32) = .ovf 0b100010#6 5#24 := by decide
/-- The vectors E12 to E14: codes 0 and 1, either gap flag. -/
theorem test_decode_evtLowch :
    classify .event false (0b0_0_1_00000_000000000000000000000000#32) = .evtLowch true 0#5 0#24 ∧
    classify .event false (0b0_0_0_00001_111111111111111111111111#32) = .evtLowch false 1#5 0xFFFFFF#24 := by decide
/-- The vectors E1 and E3: the lowest and the highest channel code. -/
theorem test_decode_evt :
    classify .event false (0b0_0_0_00010_000000000000000000000000#32) = .evt false 2#5 0#24 ∧
    classify .event false (0b0_0_1_11111_111111111111111111111111#32) = .evt true 31#5 0xFFFFFF#24 := by decide
/-- 30_encoding.md R90: the same bits mean different things in different slots. -/
theorem test_decode_depends_on_the_slot :
    classify .header false 0x40000000#32 = .hdr 0x40000000#31 ∧
    classify .event false 0x40000000#32 = .ovf 0#6 0#24 ∧
    classify .descriptor false 0x40000000#32 = .descBad 0x40000000#32 := by decide
/-- 20_memory.md R61, on the bytes of the vector S1. -/
theorem test_decode_bytes :
    decodeBytes .descriptor false [0x02#8, 0x83#8, 0x02#8, 0xC1#8, 0x00#8] =
      .instr (.desc false 0x028302#24) [0x00#8] ∧
    decodeBytes .event false [0xBA#8, 0x00#8, 0x00#8] = .rejected .partialWord := by decide

/-! ### Encoding: the items of 30_encoding.md R106 -/

theorem test_encode :
    encode (.len 3#32) = 0x00000003#32 ∧ encode (.trailer 1#32) = 0x00000001#32 ∧
    encode (.desc true 0x10#24) = 0xC5000010#32 ∧ encode (.descBad 0xC3000000#32) = 0xC3000000#32 ∧
    encode (.hdr 0x40000000#31) = 0x40000000#32 ∧ encode (.hdrBad 0x41000000#31) = 0xC1000000#32 ∧
    encode (.evtRsv true false 0#5 1#24) = 0xC0000001#32 ∧ encode (.ovf 0x3F#6 2#24) = 0x7F000002#32 ∧
    encode (.evtLowch true 0#5 0#24) = 0x20000000#32 ∧ encode (.evt true 31#5 0x123456#24) = 0x3F123456#32 := by
  decide

/-! ### Words given alone (log 7) -/

theorem test_table_words :
    decodeTableWord 32 0xC1028302 = some (.desc false 0x028302#24) ∧
    decodeTableWord 32 0x88000000 = some (.evtRsv false false 8#5 0#24) ∧
    decodeTableWord 32 0x40000001 = some (.ovf 0#6 1#24) ∧
    decodeTableWord 32 0x01000010 = some (.evtLowch false 1#5 0x10#24) ∧
    decodeTableWord 32 0x050000BA = some (.evt false 5#5 0xBA#24) ∧
    decodeTableWord 33 0 = none := by decide

/-- The descriptor placed by `withFetchWord` is where START and the steps LEN and BODY bring it. -/
theorem test_placed_descriptor_is_reached :
    core.run 3 (State.decoding [0x02#8, 0x00#8, 0x00#8, 0x00#8, 0x02#8, 0x83#8, 0x02#8, 0xC1#8, 0x00#8, 0x00#8, 0x00#8,
      0x40#8]) = .next (State.reset.withFetchWord 32 0xC1028302) := by rfl

/-- An event word placed in the reset state is where START, LEN, BODY, DESC and HDR bring it. -/
theorem test_placed_event_is_reached :
    core.run 5 (State.decoding (streamOf [3#32, 0xC1000000#32, 0x40000000#32, 0x050000BA#32])) =
      .next (State.reset.withFetchWord 32 0x050000BA) := by rfl

/-- Placed in another state, the word keeps that state's counter (log 7). -/
theorem test_placed_event_keeps_the_counter :
    ({ State.reset with ovf := 7#24 }.withFetchWord 32 0x050000BA).ovf = 7#24 := by decide

/-! ### One step at a time, in every slot

`inLen`, `inBody` and `inCheck` are the states around a length word; a word inside a block stands in a state made by
the model's own `insideBlock`. -/

/-- In LEN at the start of `m`. -/
def inLen (m : Memory) : State := { State.reset with input := some m, phase := .len }

/-- In BODY after the length word `L` at offset 0 of `m`. -/
def inBody (m : Memory) (L : Word) : State :=
  { State.reset with input := some m, phase := .body, pos := 4, lastLen := some L }

/-- In CHECK after the trailer `T` at offset 0 of `m`. -/
def inCheck (m : Memory) (T : Option Word) (pos : Nat) : State :=
  { State.reset with input := some m, phase := .check, pos := pos, lastLen := T }

/-- Slot 0 holds `w`, in a block of two words. -/
def atDescriptor (w : Word) : State := insideBlock .desc 0 [w, conventionalHeader] State.reset

/-- Slot 1 holds `w`, in a block of two words. -/
def atHeader (w : Word) : State := insideBlock .hdr 1 [plainDescriptor, w] State.reset

/-- Slot 2 holds `w`, the last word of a block of three. -/
def atEvent (w : Word) : State := insideBlock .evt 2 [plainDescriptor, conventionalHeader, w] State.reset

/-- In COMMIT after the only event word of a block. -/
def atCommit : State :=
  { insideBlock .commit 3 [plainDescriptor, conventionalHeader, 0x050000BA#32] State.reset with
    pend := [{ channel := 3#5, timestamp := 0xBA#48, gap := false }] }

/-- The state a step answers, to read one or two fields of it. -/
def after (s : State) : State :=
  match step s with
  | .next t => t
  | .fault _ => s
  | .refused _ => s

/-- The vector P1, steps 2 and 3: LEN, then BODY with its body of twelve bytes present. -/
theorem test_len :
    (after (inLen [0x03#8, 0x00#8, 0x00#8, 0x00#8])).lastLen = some 3#32 ∧
    (after (inLen [0x03#8, 0x00#8, 0x00#8, 0x00#8])).pos = 4 ∧
    (after (inLen [0x03#8, 0x00#8, 0x00#8, 0x00#8])).phase = .body := by decide
theorem test_body :
    (after (inBody (streamOf [2#32, 0xC1000000#32, 0x40000000#32]) 2#32)).buf = [0xC1000000#32, 0x40000000#32] ∧
    (after (inBody (streamOf [2#32, 0xC1000000#32, 0x40000000#32]) 2#32)).pos = 12 ∧
    (after (inBody (streamOf [2#32, 0xC1000000#32, 0x40000000#32]) 2#32)).blkBase = 4 := by decide
/-- The vectors F5 (a body of one word present) and F6 (`4 * L` without wrap). -/
theorem test_body_boundaries :
    (after (inBody (streamOf [1#32, 0xC1000000#32]) 1#32)).err.code = 0x12#8 ∧
    (after (inBody (streamOf [1#32, 0xC1000000#32]) 1#32)).pos = 8 ∧
    (after (inBody (streamOf [0xFFFFFFFF#32]) 0xFFFFFFFF#32)).phase = .check := by decide
/-- The vectors F2 and F4. -/
theorem test_check :
    (after (inCheck [1#8, 2#8, 3#8] none 0)).err =
      { code := 0x13#8, slot := .length, block := 0, offset := 0, word := 0#32, settled := false } ∧
    (after (inCheck [1#8, 2#8, 3#8] none 0)).residual = 3 ∧
    (after (inCheck (streamOf [1#32]) (some 1#32) 4)).err =
      { code := 0x03#8, slot := .trailer, block := 0, offset := 0, word := 1#32, settled := true } := by decide
/-- The vectors DS2 and DS4. -/
theorem test_desc :
    (after (atDescriptor 0xC5FFFFFF#32)).raw = true ∧ (after (atDescriptor 0xC5FFFFFF#32)).tpb = 0xFFFFFF#24 := by
  decide
theorem test_descBad :
    (after (atDescriptor 0xC0000000#32)).err =
      { code := 0x01#8, slot := .descriptor, block := 0, offset := 4, word := 0xC0000000#32, settled := true } := by
  decide
/-- The vectors H3 and H5; H6: the header does not set the counter. -/
theorem test_hdr :
    (after (atHeader 0x7FFFFFFF#32)).phase = .commit ∧ (after (atHeader 0x7FFFFFFF#32)).ovf = 0#24 := by decide
theorem test_hdrBad :
    (after (atHeader 0xC1000000#32)).err =
      { code := 0x02#8, slot := .header, block := 0, offset := 8, word := 0xC1000000#32, settled := false } := by decide
/-- The vectors E10 and E15. -/
theorem test_evtRsv :
    (after (atEvent 0xC0000001#32)).err =
      { code := 0x02#8, slot := .event, block := 0, offset := 12, word := 0xC0000001#32, settled := true } ∧
    (after (atEvent 0x81000000#32)).err.code = 0x02#8 := by decide
/-- The vectors E7 and T3: bits 29:24 ignored; the counter replaced. -/
theorem test_ovf :
    (after (atEvent 0x7F000002#32)).ovf = 2#24 ∧
    (after { atEvent 0x40000003#32 with ovf := 5#24 }).ovf = 3#24 ∧ (after (atEvent 0x7F000002#32)).pend = [] := by
  decide
/-- The vector E13. -/
theorem test_evtLowch :
    (after (atEvent 0x01FFFFFF#32)).err =
      { code := 0x11#8, slot := .event, block := 0, offset := 12, word := 0x01FFFFFF#32, settled := false } := by decide
/-- The vectors E3 and T2. -/
theorem test_evt :
    (after (atEvent 0x3FFFFFFF#32)).pend = [{ channel := 29#5, timestamp := 0xFFFFFF#48, gap := true }] ∧
    (after { atEvent 0x02FFFFFF#32 with ovf := 0xFFFFFF#24 }).pend =
      [{ channel := 0#5, timestamp := 0xFFFFFFFFFFFF#48, gap := false }] := by decide
/-- The vector P1, step 7. -/
theorem test_commit :
    (after atCommit).blocks =
      [{ rawMode := false, timePerBin := 0#24,
         events := [{ channel := 3#5, timestamp := 0xBA#48, gap := false }] }] ∧ (after atCommit).phase = .len := by
  decide

/-! ### Witnesses: the hypotheses of each statement are met, clause by clause and at the boundaries -/

theorem witness_DecodeOfEncodeIsTheInstruction :
    (Instr.evt true 31#5 0xFFFFFF#24).wellFormed = true ∧ (Instr.evt false 2#5 0#24).wellFormed = true ∧
    (Instr.evtLowch false 1#5 0#24).wellFormed = true ∧ (Instr.descBad 0xC3000000#32).wellFormed = true := by decide

theorem witness_DontCareBitsChangeNothing :
    ((0x7FFFFFFF#32 : Word).toNat < 2 ^ 31 ∧ (0#32 : Word).toNat < 2 ^ 31) ∧
    (2 ^ 31 ≤ (0x80000000#32 : Word).toNat ∧ 2 ^ 31 ≤ (0xFFFFFFFF#32 : Word).toNat) ∧
    ((0x7FFFFFFF#32 : Word).toNat / 2 ^ 30 = 1 ∧ (0x40FFFFFF#32 : Word).toNat / 2 ^ 30 = 1 ∧
      (0x7FFFFFFF#32 : Word).toNat % 2 ^ 24 = (0x40FFFFFF#32 : Word).toNat % 2 ^ 24) := by decide

/-- Four bytes at offset 0 are a word, three are none. -/
theorem witness_WordsAreLittleEndian :
    (([1#8, 2#8, 3#8, 4#8] : Memory)[0]? = some 1#8 ∧ ([1#8, 2#8, 3#8, 4#8] : Memory)[0 + 1]? = some 2#8 ∧
      ([1#8, 2#8, 3#8, 4#8] : Memory)[0 + 2]? = some 3#8 ∧ ([1#8, 2#8, 3#8, 4#8] : Memory)[0 + 3]? = some 4#8) ∧
    ([1#8, 2#8, 3#8] : Memory).length < 0 + 4 := by decide

/-- The read that just fits, and the one that is one byte short. -/
theorem witness_ReadsAreAllOrNothing :
    (inLen [1#8, 2#8, 3#8, 4#8]).input = some [1#8, 2#8, 3#8, 4#8] ∧
    (inLen [1#8, 2#8, 3#8, 4#8]).pos + 4 ≤ ([1#8, 2#8, 3#8, 4#8] : Memory).length ∧
    ([1#8, 2#8, 3#8, 4#8] : Memory).length < (inLen [1#8, 2#8, 3#8, 4#8]).pos + 5 := by decide

/-- One state for each of the six clauses. -/
theorem witness_StepRunsTheFetchedWord :
    ((inLen (streamOf [1#32])).host = [] ∧ (inLen (streamOf [1#32])).phase = .len ∧
      (inLen (streamOf [1#32])).input = some (streamOf [1#32]) ∧ Memory.wordAt (streamOf [1#32]) 0 = some 1#32) ∧
    ((inBody (streamOf [1#32]) 1#32).phase = .body ∧ (inBody (streamOf [1#32]) 1#32).lastLen = some 1#32) ∧
    ((atDescriptor 0xC1000000#32).phase = .desc ∧
      (atDescriptor 0xC1000000#32).buf[(atDescriptor 0xC1000000#32).widx]? = some 0xC1000000#32) ∧
    ((atHeader 0#32).phase = .hdr ∧ (atHeader 0#32).buf[(atHeader 0#32).widx]? = some 0#32) ∧
    ((atEvent 0#32).phase = .evt ∧ (atEvent 0#32).buf[(atEvent 0#32).widx]? = some 0#32) ∧
    ((inCheck [] (some 1#32) 0).phase = .check ∧ (inCheck [] (some 1#32) 0).lastLen = some 1#32) := by decide

theorem witness_StartBindsTheInput :
    (State.decoding [1#8]).host = .start [1#8] :: [] ∧ (State.decoding [1#8]).phase = .idle := by decide

theorem witness_StartOutsideIdleHasNoMove :
    ({ atCommit with host := [.start [1#8]] } : State).host = .start [1#8] :: [] ∧
    ({ atCommit with host := [.start [1#8]] } : State).phase ≠ .idle := by decide

theorem witness_ResetRestoresTheResetState :
    ({ atCommit with host := [.reset, .wait] } : State).host = .reset :: [.wait] := by decide

/-- One state for each of the five clauses. -/
theorem witness_WaitingHostLeavesTheDecoderAlone :
    ({ State.reset with host := [.wait] }.host = .wait :: [] ∧ State.reset.phase.quiescent = true) ∧
    ({ atCommit with host := [.wait] }.host = .wait :: [] ∧ atCommit.phase.quiescent = false) ∧
    ({ State.reset with host := [.awaitEnd], phase := .done }.host = .awaitEnd :: [] ∧ Phase.done.ended = true) ∧
    ({ atCommit with host := [.awaitEnd] }.host = .awaitEnd :: [] ∧ atCommit.phase.quiescent = false) ∧
    ({ State.reset with host := [.awaitEnd] }.host = .awaitEnd :: [] ∧ State.reset.phase = .idle) := by decide

theorem witness_QuiescentPhasesTakeNoStep :
    State.reset.host = [] ∧ State.reset.phase = .idle ∧ { State.reset with phase := .done }.phase = .done ∧
    { State.reset with phase := .error }.phase = .error := by decide

/-- The lowest and the highest code of an event. -/
theorem witness_EventWordAppendsOneEvent :
    (Instr.evt false 2#5 0#24).wellFormed = true ∧ (Instr.evt true 31#5 0#24).wellFormed = true := by decide

/-- LEN with exactly four bytes left; BODY with exactly a body of two words left. -/
theorem witness_LengthWordOpensItsBlock :
    ((inLen (streamOf [2#32])).input = some (streamOf [2#32]) ∧ (inLen (streamOf [2#32])).phase = .len ∧
      (inLen (streamOf [2#32])).pos + 4 ≤ (streamOf [2#32]).length) ∧
    ((inBody (streamOf [2#32, 0#32, 0#32]) 2#32).input = some (streamOf [2#32, 0#32, 0#32]) ∧
      (inBody (streamOf [2#32, 0#32, 0#32]) 2#32).phase = .body ∧
      (inBody (streamOf [2#32, 0#32, 0#32]) 2#32).pos + 4 * (2#32 : Word).toNat ≤ (streamOf [2#32, 0#32, 0#32]).length ∧
      2 ≤ (2#32 : Word).toNat) := by decide

/-- LEN; BODY one byte short; CHECK with the trailer 0 of no blocks, and with the trailer 1 of no blocks. -/
theorem witness_TrailerWordEndsTheDecode :
    ((inLen (streamOf [1#32])).phase = .len ∧ (inLen (streamOf [1#32])).pos + 4 ≤ (streamOf [1#32]).length) ∧
    ((inBody (streamOf [1#32] ++ [1#8, 2#8, 3#8]) 1#32).phase = .body ∧
      (streamOf [1#32] ++ [1#8, 2#8, 3#8]).length <
        (inBody (streamOf [1#32] ++ [1#8, 2#8, 3#8]) 1#32).pos + 4 * (1#32 : Word).toNat) ∧
    ((inCheck [] (some 0#32) 0).phase = .check ∧ (0#32 : Word).toNat = (inCheck [] (some 0#32) 0).blocks.length) ∧
    ((inCheck [] (some 1#32) 0).phase = .check ∧
      (1#32 : Word).toNat ≠ (inCheck [] (some 1#32) 0).blocks.length) := by decide

/-- A next state not in ERROR, one in ERROR, and an instruction that is no TRAILER. -/
theorem witness_NoWordTouchesInputOrOutput :
    (∃ t, exec (.ovf 0#6 1#24) (atEvent 0x40000001#32) = .next t ∧ t.phase ≠ .error) ∧
    (∃ t, exec (.descBad 0#32) (atDescriptor 0#32) = .next t ∧ t.phase = .error) ∧
    (∀ T, Instr.ovf 0#6 1#24 ≠ .trailer T) :=
  ⟨⟨_, rfl, by decide⟩, ⟨_, rfl, rfl⟩, fun _ h => by cases h⟩

theorem witness_LengthStepReadsOneWord :
    ((inLen (streamOf [1#32])).host = [] ∧ (inLen (streamOf [1#32])).phase = .len ∧
      (inLen (streamOf [1#32])).input = some (streamOf [1#32]) ∧
      (inLen (streamOf [1#32])).pos + 4 ≤ (streamOf [1#32]).length) ∧
    ((inLen [1#8, 2#8, 3#8]).input = some [1#8, 2#8, 3#8] ∧
      ([1#8, 2#8, 3#8] : Memory).length < (inLen [1#8, 2#8, 3#8]).pos + 4) := by decide

/-- A body one byte short, a whole body of one word and of none, a whole body of two words. -/
theorem witness_BodyStepFetchesTheBlock :
    ((inBody (streamOf [1#32] ++ [1#8, 2#8, 3#8]) 1#32).host = [] ∧
      (inBody (streamOf [1#32] ++ [1#8, 2#8, 3#8]) 1#32).lastLen = some 1#32 ∧
      (streamOf [1#32] ++ [1#8, 2#8, 3#8]).length < 4 + 4 * (1#32 : Word).toNat) ∧
    ((inBody (streamOf [1#32, 0#32]) 1#32).pos + 4 * (1#32 : Word).toNat ≤ (streamOf [1#32, 0#32]).length ∧
      (1#32 : Word).toNat < 2 ∧ (inBody (streamOf [0#32]) 0#32).pos + 4 * (0#32 : Word).toNat ≤ (streamOf [0#32]).length) ∧
    ((inBody (streamOf [2#32, 0#32, 0#32]) 2#32).pos + 4 * (2#32 : Word).toNat ≤ (streamOf [2#32, 0#32, 0#32]).length ∧
      2 ≤ (2#32 : Word).toNat) := by decide

theorem witness_CheckStepComparesTheTrailer :
    ((inCheck [1#8] none 0).host = [] ∧ (inCheck [1#8] none 0).phase = .check ∧
      (inCheck [1#8] none 0).input = some [1#8] ∧ (inCheck [1#8] none 0).lastLen = none) ∧
    ((inCheck [] (some 0#32) 0).lastLen = some 0#32 ∧ (0#32 : Word).toNat = (inCheck [] (some 0#32) 0).blocks.length) ∧
    ((inCheck [] (some 1#32) 0).lastLen = some 1#32 ∧
      (1#32 : Word).toNat ≠ (inCheck [] (some 1#32) 0).blocks.length) := by decide

/-- Both accepted top bytes, and a rejected one beside them. -/
theorem witness_DescriptorStepChecksTheSyncByte :
    ((atDescriptor 0xC1000000#32).host = [] ∧ (atDescriptor 0xC1000000#32).phase = .desc ∧
      (atDescriptor 0xC1000000#32).buf[(atDescriptor 0xC1000000#32).widx]? = some 0xC1000000#32) ∧
    ((0xC1000000#32 : Word).toNat / 2 ^ 24) &&& 0xFB = 0xC1 ∧ ((0xC5FFFFFF#32 : Word).toNat / 2 ^ 24) &&& 0xFB = 0xC1 ∧
    ((0xC0FFFFFF#32 : Word).toNat / 2 ^ 24) &&& 0xFB ≠ 0xC1 := by decide

/-- The largest accepted header and the smallest rejected one. -/
theorem witness_HeaderStepChecksOnlyTheReservedBit :
    ((atHeader 0x7FFFFFFF#32).host = [] ∧ (atHeader 0x7FFFFFFF#32).phase = .hdr ∧
      (atHeader 0x7FFFFFFF#32).buf[(atHeader 0x7FFFFFFF#32).widx]? = some 0x7FFFFFFF#32) ∧
    (0x7FFFFFFF#32 : Word).toNat / 2 ^ 31 = 0 ∧ (0x80000000#32 : Word).toNat / 2 ^ 31 = 1 := by decide

/-- The classes at the boundaries between them. -/
theorem witness_EventStepDecomposesTheWord :
    ((atEvent 0x3FFFFFFF#32).host = [] ∧ (atEvent 0x3FFFFFFF#32).phase = .evt ∧
      (atEvent 0x3FFFFFFF#32).buf[(atEvent 0x3FFFFFFF#32).widx]? = some 0x3FFFFFFF#32) ∧
    (0x80000000#32 : Word).toNat / 2 ^ 31 = 1 ∧
    ((0x7FFFFFFF#32 : Word).toNat / 2 ^ 31 = 0 ∧ (0x7FFFFFFF#32 : Word).toNat / 2 ^ 30 % 2 = 1) ∧
    ((0x02000000#32 : Word).toNat / 2 ^ 31 = 0 ∧ (0x02000000#32 : Word).toNat / 2 ^ 30 % 2 = 0 ∧
      2 ≤ (0x02000000#32 : Word).toNat / 2 ^ 24 % 32) ∧
    ((0x3FFFFFFF#32 : Word).toNat / 2 ^ 31 = 0 ∧ (0x3FFFFFFF#32 : Word).toNat / 2 ^ 30 % 2 = 0 ∧
      2 ≤ (0x3FFFFFFF#32 : Word).toNat / 2 ^ 24 % 32) := by decide

theorem witness_LowChannelCodeRaisesItsError :
    (atEvent 0x21FFFFFF#32).host = [] ∧ (atEvent 0x21FFFFFF#32).phase = .evt ∧
    (atEvent 0x21FFFFFF#32).buf[(atEvent 0x21FFFFFF#32).widx]? = some 0x21FFFFFF#32 ∧
    (0x21FFFFFF#32 : Word).toNat / 2 ^ 31 = 0 ∧ (0x21FFFFFF#32 : Word).toNat / 2 ^ 30 % 2 = 0 ∧
    (0x21FFFFFF#32 : Word).toNat / 2 ^ 24 % 32 < 2 := by decide

theorem witness_CommitStepAppendsOneBlock : atCommit.host = [] ∧ atCommit.phase = .commit := by decide

theorem witness_TimestampsAndChannelsAreExact : 2 ≤ (2#5 : BitVec 5).toNat ∧ 2 ≤ (31#5 : BitVec 5).toNat := by decide

theorem witness_ResultIsDeliveredOnlyAtTheEnd :
    { State.reset with phase := .done }.phase = .done ∧ { State.reset with phase := .error }.phase = .error ∧
    State.reset.phase ≠ .done ∧ State.reset.phase ≠ .error := by decide

/-- The state in COMMIT has the invariant, and the step commits from it. -/
theorem atCommit_inv : atCommit.Inv where
  aligned := by decide
  inBounds := by rintro m ⟨⟩; decide
  bound := by decide
  lengthWord := by rintro m L ⟨⟩ ⟨⟩; decide
  bodyLength := by decide
  block := by decide
  blockWords := by
    rintro - m ⟨⟩ i hi
    have hi : i < 3 := hi
    interval_cases i <;> decide
  atDesc := by decide
  atHdr := by decide
  atEvt := by decide
  atCommit := by decide
  nothingPending := by decide
  pendCount := by decide
  errorCode := by decide
  widxBound := by decide
  channels := by decide
  atDone := fun h => absurd h (by decide)

/-- The state in EVT before the invalid word of the vector E9 has the invariant. -/
theorem atEvent_inv : (atEvent 0x80000000#32).Inv where
  aligned := by decide
  inBounds := by rintro m ⟨⟩; decide
  bound := by decide
  lengthWord := by rintro m L ⟨⟩ ⟨⟩; decide
  bodyLength := by decide
  block := by decide
  blockWords := by
    rintro - m ⟨⟩ i hi
    have hi : i < 3 := hi
    interval_cases i <;> decide
  atDesc := by decide
  atHdr := by decide
  atEvt := by decide
  atCommit := by decide
  nothingPending := by decide
  pendCount := by decide
  errorCode := by decide
  widxBound := by decide
  channels := by decide
  atDone := fun h => absurd h (by decide)

theorem witness_EveryStepKeepsTheInvariant : atCommit.Inv ∧ ∃ t, step atCommit = .next t := ⟨atCommit_inv, _, rfl⟩

/-- A lone overflow word; a step on another event word, and the fetch of a body; two overflow words. -/
theorem witness_CounterIsReplacedNeverAdded :
    (∃ t, (atEvent 0x7FFFFFFF#32).host = [] ∧ (atEvent 0x7FFFFFFF#32).phase = .evt ∧
      (atEvent 0x7FFFFFFF#32).buf[(atEvent 0x7FFFFFFF#32).widx]? = some 0x7FFFFFFF#32 ∧
      (0x7FFFFFFF#32 : Word).toNat / 2 ^ 30 = 1 ∧ step (atEvent 0x7FFFFFFF#32) = .next t) ∧
    (∃ t, (atEvent 0x3FFFFFFF#32).host = [] ∧ step (atEvent 0x3FFFFFFF#32) = .next t ∧
      ∀ w, (atEvent 0x3FFFFFFF#32).phase = .evt →
        (atEvent 0x3FFFFFFF#32).buf[(atEvent 0x3FFFFFFF#32).widx]? = some w → w.toNat / 2 ^ 30 ≠ 1) ∧
    (∃ t, (inBody (streamOf [2#32, 0#32, 0#32]) 2#32).host = [] ∧
      step (inBody (streamOf [2#32, 0#32, 0#32]) 2#32) = .next t ∧
      ∀ w, (inBody (streamOf [2#32, 0#32, 0#32]) 2#32).phase = .evt →
        (inBody (streamOf [2#32, 0#32, 0#32]) 2#32).buf[(inBody (streamOf [2#32, 0#32, 0#32]) 2#32).widx]? = some w →
          w.toNat / 2 ^ 30 ≠ 1) ∧
    (∃ t u, exec (.ovf 0#6 5#24) (atEvent 0x40000005#32) = .next t ∧ exec (.ovf 0#6 3#24) t = .next u) := by
  refine ⟨⟨_, rfl, rfl, rfl, by decide, rfl⟩, ⟨_, rfl, rfl, ?_⟩, ⟨_, rfl, rfl, ?_⟩, _, _, rfl, rfl⟩
  · rintro w - ⟨⟩
    decide
  · rintro w ⟨⟩

theorem witness_CommittedBlocksNeverChange :
    (∃ t, atCommit.host = [] ∧ step atCommit = .next t ∧ atCommit.phase = .commit) ∧
    (∃ t, (atEvent 0#32).host = [] ∧ step (atEvent 0#32) = .next t ∧ (atEvent 0#32).phase ≠ .commit) :=
  ⟨⟨_, rfl, rfl, rfl⟩, _, rfl, rfl, by decide⟩

/-- A step of the decoder, a START and a RESET. -/
theorem witness_InputIsNeverWritten :
    (∃ t, step (atEvent 0#32) = .next t) ∧ (∃ t, step (State.decoding [1#8]) = .next t) ∧
    (∃ t, step { atCommit with host := [.reset] } = .next t) :=
  ⟨⟨_, rfl⟩, ⟨_, rfl⟩, _, rfl⟩

/-- A step that leaves the cursor, one of LEN and one of BODY that move it. -/
theorem witness_CursorMovesOnlyByWholeReads :
    (∃ t, (atEvent 0#32).host = [] ∧ step (atEvent 0#32) = .next t ∧ t.pos = (atEvent 0#32).pos) ∧
    (∃ t, (inLen (streamOf [1#32])).host = [] ∧ step (inLen (streamOf [1#32])) = .next t ∧ t.pos = 4) ∧
    (∃ t, (inBody (streamOf [2#32, 0#32, 0#32]) 2#32).host = [] ∧
      step (inBody (streamOf [2#32, 0#32, 0#32]) 2#32) = .next t ∧ t.pos = 12) :=
  ⟨⟨_, rfl, rfl, rfl⟩, ⟨_, rfl, rfl, by decide⟩, _, rfl, rfl, by decide⟩

/-- One step in COMMIT meets all four clauses. -/
theorem witness_EachLatchHasItsOneWriter :
    ∃ t, atCommit.host = [] ∧ step atCommit = .next t ∧ atCommit.phase ≠ .desc ∧ atCommit.phase ≠ .body ∧
      atCommit.phase ≠ .len ∧ atCommit.phase ≠ .check :=
  ⟨_, rfl, rfl, by decide⟩

theorem witness_ErrorRecordIsWrittenOnlyByErrorEntry :
    (∃ t, atCommit.host = [] ∧ step atCommit = .next t ∧ t.phase ≠ .error) ∧
    (∃ t, (atEvent 0x80000000#32).host = [] ∧ step (atEvent 0x80000000#32) = .next t ∧ t.phase = .error) :=
  ⟨⟨_, rfl, rfl, by decide⟩, _, rfl, rfl, by decide⟩

theorem witness_ErrorsArePrecise :
    ∃ m t, (atEvent 0x80000000#32).Inv ∧ (atEvent 0x80000000#32).host = [] ∧ (atEvent 0x80000000#32).input = some m ∧
      step (atEvent 0x80000000#32) = .next t ∧ t.phase = .error :=
  ⟨_, _, atEvent_inv, rfl, rfl, rfl, by decide⟩

/-- In ERROR: a RESET, and a host that waits. -/
theorem witness_ErrorIsLeftOnlyByReset :
    (∃ t, step { State.reset with phase := .error, host := [.reset] } = .next t) ∧
    (∃ t, step { State.reset with phase := .error, host := [.wait] } = .next t) := ⟨⟨_, rfl⟩, _, rfl⟩

/-- In DONE: a RESET, and a host that waits for the end. -/
theorem witness_ResultIsKeptUntilReset :
    (∃ t, step { State.reset with phase := .done, host := [.reset] } = .next t) ∧
    (∃ t, step { State.reset with phase := .done, host := [.awaitEnd] } = .next t) := ⟨⟨_, rfl⟩, _, rfl⟩

/-- A step that stays among the reading phases, and one that leaves them. -/
theorem witness_PhasesFollowTheStepSequence :
    (∃ t, atCommit.host = [] ∧ step atCommit = .next t ∧ t.phase.readingBlocks = true) ∧
    (∃ t, (inLen []).host = [] ∧ step (inLen []) = .next t ∧ t.phase.readingBlocks = false) :=
  ⟨⟨_, rfl, rfl, rfl⟩, _, rfl, rfl, rfl⟩

/-- Both ways into CHECK, each one byte short. -/
theorem witness_CheckIsReachedOnlyByAShortRead :
    (∃ t, (inLen [1#8, 2#8, 3#8]).host = [] ∧ step (inLen [1#8, 2#8, 3#8]) = .next t ∧ t.phase = .check) ∧
    (∃ t, (inBody (streamOf [1#32] ++ [1#8, 2#8, 3#8]) 1#32).host = [] ∧
      step (inBody (streamOf [1#32] ++ [1#8, 2#8, 3#8]) 1#32) = .next t ∧ t.phase = .check) :=
  ⟨⟨_, rfl, rfl, by decide⟩, _, rfl, rfl, by decide⟩

theorem witness_SuccessfulDecodeCountsItsBlocks :
    ∃ t, (inCheck [] (some 0#32) 0).host = [] ∧ step (inCheck [] (some 0#32) 0) = .next t ∧ t.phase = .done :=
  ⟨_, rfl, rfl, by decide⟩

theorem witness_EventCountOfACommittedBlock : atCommit.Inv ∧ atCommit.host = [] ∧ atCommit.phase = .commit :=
  ⟨atCommit_inv, rfl, rfl⟩

/-- Two states that differ in the raw latch only. -/
theorem witness_RawModeSelectsNothing :
    ∃ t, atCommit.eraseRaw = { atCommit with raw := true }.eraseRaw ∧ step atCommit = .next t := ⟨_, by decide, rfl⟩

theorem witness_BlockStartsFresh :
    (inBody (streamOf [2#32, 0#32, 0#32]) 2#32).host = [] ∧ (inBody (streamOf [2#32, 0#32, 0#32]) 2#32).phase = .body ∧
    (inBody (streamOf [2#32, 0#32, 0#32]) 2#32).input = some (streamOf [2#32, 0#32, 0#32]) ∧
    (inBody (streamOf [2#32, 0#32, 0#32]) 2#32).lastLen = some 2#32 ∧ 2 ≤ (2#32 : Word).toNat ∧
    (inBody (streamOf [2#32, 0#32, 0#32]) 2#32).pos + 4 * (2#32 : Word).toNat ≤ (streamOf [2#32, 0#32, 0#32]).length := by
  decide

/-- Two states in LEN that differ in every field of the block decoder. -/
theorem witness_BlockDecoderFieldsNeverReachTheHost :
    ∃ s' : State, (inLen []).phase = .len ∧ s' ≠ inLen [] ∧
      s' = { inLen [] with blkLen := s'.blkLen, widx := s'.widx, blkBase := s'.blkBase, buf := s'.buf, ovf := s'.ovf,
                           raw := s'.raw, tpb := s'.tpb, pend := s'.pend } :=
  ⟨{ inLen [] with blkLen := 3#32, widx := 3, blkBase := 4, buf := [0#32], ovf := 7#24, raw := true, tpb := 1#24,
                   pend := [{ channel := 0#5, timestamp := 0#48, gap := true }] }, by decide⟩

/-- A block the algorithm accepts, and one it does not. -/
theorem witness_BlockDecodesAsTheSource :
    ((atDescriptor 0xC1000000#32).host = [] ∧ (atDescriptor 0xC1000000#32).phase = .desc ∧
      (atDescriptor 0xC1000000#32).widx = 0 ∧
      (atDescriptor 0xC1000000#32).buf = 0xC1000000#32 :: conventionalHeader :: [] ∧
      (atDescriptor 0xC1000000#32).blkLen.toNat = (atDescriptor 0xC1000000#32).buf.length ∧
      (atDescriptor 0xC1000000#32).ovf = 0#24 ∧ (atDescriptor 0xC1000000#32).pend = []) ∧
    sourceBlock ((atDescriptor 0xC1000000#32).buf.map BitVec.toNat) = some (false, 0, []) ∧
    sourceBlock ((atDescriptor 0#32).buf.map BitVec.toNat) = none := by decide

/-- The empty input (the vector F1): three steps to its end, which the algorithm calls an error. -/
theorem witness_DecodeAgreesWithTheSource_error :
    ∃ t, (State.decoding []).runsTo 3 t ∧ t.phase.ended = true ∧ sourceDecode [] = none := ⟨_, rfl, rfl, by decide⟩

/-- The vector F7: the smallest stream that the algorithm accepts, in the nine steps the vector gives it. -/
theorem witness_DecodeAgreesWithTheSource_ok :
    ∃ t, (State.decoding (streamOf [2#32, 0xC1000000#32, 0x40000000#32, 1#32])).runsTo 9 t ∧ t.phase.ended = true ∧
      sourceDecode (streamOf [2#32, 0xC1000000#32, 0x40000000#32, 1#32]) = some ([(false, 0, [])], 0) :=
  ⟨_, rfl, rfl, by
    simp [sourceDecode, streamOf, leBytes, sourceStream, sourceWord, sourceWords, sourceBlock, sourceEvents]⟩

/-- The vector P2 on the source's algorithm alone: threading of the counter over both blocks. -/
theorem test_source_algorithm :
    sourceDecode (streamOf [7#32, 0xC5000010#32, 0x40000000#32, 0x40000001#32, 0x020002AC#32, 0x40000005#32,
      0x40000003#32, 0x3F123456#32, 3#32, 0xC1000000#32, 0#32, 0x22FFFFFF#32, 2#32]) =
      some ([(true, 0x10, [(0, 0x10002AC, false), (29, 0x3123456, true)]), (false, 0, [(0, 0xFFFFFF, true)])], 0) := by
  simp [sourceDecode, streamOf, leBytes, sourceStream, sourceWord, sourceWords, sourceBlock, sourceEvents]

/-- The start of a decode has the invariant. -/
theorem inLen_inv : (inLen (streamOf [1#32])).Inv where
  aligned := by decide
  inBounds := by rintro m ⟨⟩; decide
  bound := by decide
  lengthWord := by rintro m L - ⟨⟩
  bodyLength := by decide
  block := by decide
  blockWords := fun h => absurd h (by decide)
  atDesc := by decide
  atHdr := by decide
  atEvt := by decide
  atCommit := by decide
  nothingPending := by decide
  pendCount := by decide
  errorCode := by decide
  widxBound := by decide
  channels := by decide
  atDone := fun h => absurd h (by decide)

/-- The start of a decode, where the second clause applies too, and the end of a block. -/
theorem witness_EveryStepOfADecodeMakesProgress :
    ((inLen (streamOf [1#32])).Inv ∧ (inLen (streamOf [1#32])).host = [] ∧
      (inLen (streamOf [1#32])).phase.quiescent = false ∧ (inLen (streamOf [1#32])).phase = .len ∧
      (inLen (streamOf [1#32])).input = some (streamOf [1#32])) ∧
    (atCommit.Inv ∧ atCommit.host = [] ∧ atCommit.phase.quiescent = false) :=
  ⟨⟨inLen_inv, rfl, rfl, rfl, rfl⟩, atCommit_inv, rfl, rfl⟩

/-- The vector P1, 20 bytes: with START, the bound the "Step bound check" of 95_test_vectors.md gives it. -/
theorem test_stepsLeft :
    (inLen (streamOf [3#32, 0xC1028302#32, 0x40000000#32, 0x050000BA#32, 1#32])).stepsLeft + 1 = 20 / 2 + 4 := by decide

/-- The end of a block; a step that keeps RAW and TPB, one that replaces both, and a RESET in COMMIT. -/
theorem witness_DescriptorFieldsArePassedThrough :
    (atCommit.phase = .commit ∧ (∀ m rest, atCommit.host ≠ .start m :: rest) ∧
      (∀ rest, atCommit.host ≠ .reset :: rest)) ∧
    ((atEvent 0x3FFFFFFF#32).phase ≠ .commit ∧ ∃ t, step (atEvent 0x3FFFFFFF#32) = .next t) ∧
    ((atDescriptor 0xC5028302#32).phase ≠ .commit ∧ ∃ t, step (atDescriptor 0xC5028302#32) = .next t) ∧
    ({ atCommit with host := [.reset] }.host = .reset :: [] ∧
      ∃ t, step { atCommit with host := [.reset] } = .next t) :=
  ⟨⟨rfl, by simp [atCommit], by simp [atCommit]⟩, ⟨by decide, _, rfl⟩, ⟨by decide, _, rfl⟩, rfl, _, rfl⟩

theorem witness_DecoderNeverWritesTheInput :
    (∃ t, decoderStep (inLen (streamOf [1#32])) = .next t) ∧
    (∃ t, exec (.trailer 1#32) (inLen (streamOf [1#32])) = .next t) := ⟨⟨_, rfl⟩, _, rfl⟩

/-- In ERROR: a host that waits, and one that starts. -/
theorem witness_ErrorPhaseIsQuiescent :
    (∃ t, { State.reset with phase := .error, host := [.wait] }.phase = .error ∧
      (∀ rest, { State.reset with phase := .error, host := [.wait] }.host ≠ .reset :: rest) ∧
      step { State.reset with phase := .error, host := [.wait] } = .next t) ∧
    { State.reset with phase := .error, host := [.start [1#8]] }.host = .start [1#8] :: [] :=
  ⟨⟨_, rfl, (fun _ h => by cases h), rfl⟩, rfl⟩

end Sys2Proof.Tests
end

section
/-! PROOF of the family 20_memory.md: nothing the decoder does writes the input (R66). -/

namespace Sys2Proof.Machine

/-! ### The framing steps leave the input as it is -/

theorem lenStep_keeps_input {w : Word} {s t : State} (h : lenStep w s = .next t) : t.input = s.input := by
  cases hi : s.input with
  | none => rw [lenStep_unbound hi] at h; cases h
  | some m =>
    by_cases hs : s.pos + 4 ≤ m.length
    · rw [lenStep_read hi hs] at h; cases h; exact hi
    · rw [lenStep_short hi (by omega)] at h; cases h; exact hi

theorem bodyStep_keeps_input {L : Word} {s t : State} (h : bodyStep L s = .next t) : t.input = s.input := by
  cases hi : s.input with
  | none => rw [bodyStep_unbound hi] at h; cases h
  | some m =>
    by_cases hs : s.pos + 4 * L.toNat ≤ m.length
    · by_cases hL : L.toNat < 2
      · rw [bodyStep_tooShort hi hs hL] at h; cases h; exact hi
      · rw [bodyStep_open hi hs (by omega)] at h; cases h; exact hi
    · rw [bodyStep_short hi (by omega)] at h; cases h; exact hi

theorem checkStep_some_keeps_input {T : Word} {s t : State} (h : checkStep (some T) s = .next t) :
    t.input = s.input := by
  cases hi : s.input with
  | none => rw [checkStep_unbound hi] at h; cases h
  | some m =>
    by_cases hT : T.toNat = s.bcount
    · rw [checkStep_match hi hT] at h; cases h; exact hi
    · rw [checkStep_mismatch hi hT] at h; cases h; exact hi

/-! ### The two classes of slot LENGTH are framing steps, whatever the phase -/

theorem exec_len_cases (L : Word) (s : State) :
    exec (.len L) s = bodyStep L s ∨ exec (.len L) s = lenStep L s := by
  by_cases hp : s.phase = .body
  · exact .inl (exec_len_body hp)
  · exact .inr (exec_len_len hp)

theorem exec_trailer_cases (T : Word) (s : State) :
    exec (.trailer T) s = lenStep T s ∨ exec (.trailer T) s = bodyStep T s ∨
      exec (.trailer T) s = checkStep (some T) s := by
  by_cases hl : s.phase = .len
  · exact .inl (exec_trailer_len hl)
  · by_cases hb : s.phase = .body
    · exact .inr (.inl (exec_trailer_body hb))
    · exact .inr (.inr (by simp [exec, execTrailer, hl, hb]))

/-! ### No word and no move of the decoder writes the input -/

theorem exec_keeps_input {i : Instr} {s t : State} (h : exec i s = .next t) : t.input = s.input := by
  cases i with
  | len L =>
    obtain he | he := exec_len_cases L s
    · exact bodyStep_keeps_input (he ▸ h)
    · exact lenStep_keeps_input (he ▸ h)
  | trailer T =>
    obtain he | he | he := exec_trailer_cases T s
    · exact lenStep_keeps_input (he ▸ h)
    · exact bodyStep_keeps_input (he ▸ h)
    · exact checkStep_some_keeps_input (he ▸ h)
  | desc r tpb => rw [exec_desc] at h; cases h; rfl
  | descBad w => rw [exec_descBad] at h; cases h; rfl
  | hdr d => rw [exec_hdr] at h; cases h; rfl
  | hdrBad d => rw [exec_hdrBad] at h; cases h; rfl
  | evtRsv o g c p => rw [exec_evtRsv] at h; cases h; rfl
  | ovf ig v => rw [exec_ovf] at h; cases h; rfl
  | evtLowch g c time => rw [exec_evtLowch] at h; cases h; rfl
  | evt g c time => rw [exec_evt] at h; cases h; rfl

theorem DecoderMove.keeps_input {s t : State} (h : DecoderMove s t) : t.input = s.input := by
  cases h <;> rfl

/-- Settles O58: each of the decoder's moves keeps the input, and so does each word class in any state. -/
theorem decoderNeverWritesTheInput : Obligations.DecoderNeverWritesTheInput :=
  ⟨fun _ _ h => (decoderStep_move h).keeps_input, fun _ _ _ h => exec_keeps_input h⟩

end Sys2Proof.Machine
end

section
/-! PROOF of the family 41_descriptor.md: the sync check and the latches (R160, R162), and RAW and TPB read by the
COMMIT step alone (R161). -/

namespace Sys2Proof.Machine

/-! ### The fields of the descriptor word as numbers (30_encoding.md R93, R99) -/

/-- The sync check as R99 writes it, on the number of the word. -/
theorem descValid_iff_toNat (w : Word) : descValid w = true ↔ w.toNat / 2 ^ 24 &&& 0xFB = 0xC1 := by
  have htop : (topByte w).toNat = w.toNat / 2 ^ 24 := by
    have := w.isLt
    simp only [topByte, BitVec.extractLsb'_toNat, Nat.shiftRight_eq_div_pow]
    omega
  rw [descValid, beq_iff_eq, ← BitVec.toNat_inj, BitVec.toNat_and, htop]
  rfl

theorem rawModeOf_eq_toNat (w : Word) : rawModeOf w = (w.toNat / 2 ^ 26 % 2 == 1) := by
  rw [rawModeOf, BitVec.getLsbD, Nat.testBit_eq_decide_div_mod_eq]
  rfl

theorem payloadOf_eq_ofNat (w : Word) : payloadOf w = BitVec.ofNat 24 (w.toNat % 2 ^ 24) := by
  rw [← BitVec.toNat_inj, payloadOf, BitVec.extractLsb'_toNat, BitVec.toNat_ofNat, Nat.shiftRight_zero, Nat.mod_mod]

/-! ### The DESC step on either kind of word -/

theorem decoderStep_desc_valid {s : State} {w : Word} (hp : s.phase = .desc) (hw : s.buf[s.widx]? = some w)
    (hv : descValid w = true) :
    decoderStep s = .next { s with raw := rawModeOf w, tpb := payloadOf w, widx := s.widx + 1, phase := .hdr } := by
  rw [decoderStep_desc hp hw, decodeDescriptor, if_pos hv, exec_desc]

theorem decoderStep_desc_invalid {s : State} {w : Word} (hp : s.phase = .desc) (hw : s.buf[s.widx]? = some w)
    (hv : ¬descValid w = true) :
    decoderStep s = .next (raiseError .invalidDescriptor .descriptor s.wordOffset w s) := by
  rw [decoderStep_desc hp hw, decodeDescriptor, if_neg hv, exec_descBad]

/-- Settles O27: the DESC step branches on the sync check, and the check and the latched fields are numbers of the
word. -/
theorem descriptorStepChecksTheSyncByte : Obligations.DescriptorStepChecksTheSyncByte := by
  intro s w hh hp hw
  rw [step_nil hh, ← rawModeOf_eq_toNat, ← payloadOf_eq_ofNat, ne_eq, ← descValid_iff_toNat]
  exact ⟨decoderStep_desc_valid hp hw, decoderStep_desc_invalid hp hw⟩

/-! ### The decoder takes every move listed for it -/

/-- Converse of `decoderStep_move`: a listed move is the step the decoder takes. -/
theorem DecoderMove.decoderStep_eq {s t : State} (h : DecoderMove s t) : decoderStep s = .next t := by
  cases h with
  | lenShort m hp hi hs => simp only [decoderStep_len hp hi, Memory.wordAt_none hs]
  | lenWord m w hp hi hw => simp only [decoderStep_len hp hi, hw]
  | bodyShort m L hp hi hl hs => rw [decoderStep_body hp hi hl, bodyStep_short hi hs]
  | bodyTooShort m L hp hi hl hs hL => rw [decoderStep_body hp hi hl, bodyStep_tooShort hi hs hL]
  | bodyOpen m L hp hi hl hs hL => rw [decoderStep_body hp hi hl, bodyStep_open hi hs hL]
  | desc w hp hw hv => exact decoderStep_desc_valid hp hw hv
  | descBad w hp hw hv => exact decoderStep_desc_invalid hp hw (by simp [hv])
  | hdr w hp hw hr => simp [decoderStep_hdr hp hw, decodeHeader, hr, exec_hdr]
  | hdrBad w hp hw hr => simp [decoderStep_hdr hp hw, decodeHeader, hr, exec_hdrBad]
  | evtRsv w hp hw hr => simp [decoderStep_evt hp hw, decodeEvent, decompose, hr, exec_evtRsv]
  | ovf w hp hw hr ho => simp [decoderStep_evt hp hw, decodeEvent, decompose, hr, ho, exec_ovf]
  | evtLowch w hp hw hr ho hc => simp [decoderStep_evt hp hw, decodeEvent, decompose, hr, ho, hc, exec_evtLowch]
  | evt w hp hw hr ho hc =>
    simp [decoderStep_evt hp hw, decodeEvent, decompose, hr, ho, Nat.not_lt.2 hc, exec_evt]
  | commit hp => exact decoderStep_commit hp
  | checkNone m hp hi hl => exact (decoderStep_check hp).trans (hl ▸ checkStep_none hi)
  | checkDone m T hp hi hl hT => exact (decoderStep_check hp).trans (hl ▸ checkStep_match hi hT)
  | checkMismatch m T hp hi hl hT => exact (decoderStep_check hp).trans (hl ▸ checkStep_mismatch hi hT)

/-! ### The host's moves where they are accepted, and who steps while the host waits -/

theorem step_start_idle {s : State} {m : Memory} {rest : List HostMove} (h : s.host = .start m :: rest)
    (hp : s.phase = .idle) :
    step s = .next { s with host := rest, input := some m, pos := 0, lastLen := none, lenOff := 0, blocks := [],
                            residual := 0, phase := .len } :=
  (step_start h).trans (if_pos hp)

theorem step_wait_quiescent {s : State} {rest : List HostMove} (h : s.host = .wait :: rest)
    (hq : s.phase.quiescent = true) : step s = .next { s with host := rest } :=
  (step_wait h).trans (if_pos hq)

theorem step_wait_decoder {s : State} {rest : List HostMove} (h : s.host = .wait :: rest)
    (hq : s.phase.quiescent = false) : step s = decoderStep { s with host := rest } :=
  (step_wait h).trans (if_neg (by simp [hq]))

theorem step_awaitEnd_ended {s : State} {rest : List HostMove} (h : s.host = .awaitEnd :: rest)
    (he : s.phase.ended = true) : step s = .next { s with host := rest } :=
  (step_awaitEnd h).trans (if_pos he)

theorem step_awaitEnd_decoder {s : State} {rest : List HostMove} (h : s.host = .awaitEnd :: rest)
    (he : s.phase.ended = false) : step s = decoderStep s :=
  (step_awaitEnd h).trans (if_neg (by simp [he]))

/-! ### States that differ in RAW and TPB alone -/

/-- `s` with other contents of `S.RAW` and `S.TPB`. -/
def State.withRawTpb (s : State) (r : Bool) (v : BitVec 24) : State := { s with raw := r, tpb := v }

@[simp] theorem withRawTpb_phase (s : State) (r : Bool) (v : BitVec 24) : (s.withRawTpb r v).phase = s.phase := rfl

/-- The two ways the move from `s` to `t` can leave RAW and TPB unread: the next state is `t` whatever they held, or
it is `t` but for the two fields, which stay. -/
def PassesRawTpb (R : State → State → Prop) (s t : State) : Prop :=
  (∀ r v, R (s.withRawTpb r v) t) ∨ ∀ r v, R (s.withRawTpb r v) (t.withRawTpb r v)

/-- Only DESC overwrites the two fields, and only COMMIT reads them. -/
theorem DecoderMove.passesRawTpb {s t : State} (h : DecoderMove s t) (hc : s.phase ≠ .commit) :
    PassesRawTpb DecoderMove s t := by
  cases h with
  | commit hp => exact absurd hp hc
  | desc w hp hw hv => exact .inl fun _ _ => .desc w hp hw hv
  | lenShort m hp hi hs => exact .inr fun _ _ => .lenShort m hp hi hs
  | lenWord m w hp hi hw => exact .inr fun _ _ => .lenWord m w hp hi hw
  | bodyShort m L hp hi hl hs => exact .inr fun _ _ => .bodyShort m L hp hi hl hs
  | bodyTooShort m L hp hi hl hs hL => exact .inr fun _ _ => .bodyTooShort m L hp hi hl hs hL
  | bodyOpen m L hp hi hl hs hL => exact .inr fun _ _ => .bodyOpen m L hp hi hl hs hL
  | descBad w hp hw hv => exact .inr fun _ _ => .descBad w hp hw hv
  | hdr w hp hw hr => exact .inr fun _ _ => .hdr w hp hw hr
  | hdrBad w hp hw hr => exact .inr fun _ _ => .hdrBad w hp hw hr
  | evtRsv w hp hw hr => exact .inr fun _ _ => .evtRsv w hp hw hr
  | ovf w hp hw hr ho => exact .inr fun _ _ => .ovf w hp hw hr ho
  | evtLowch w hp hw hr ho hl => exact .inr fun _ _ => .evtLowch w hp hw hr ho hl
  | evt w hp hw hr ho hl => exact .inr fun _ _ => .evt w hp hw hr ho hl
  | checkNone m hp hi hl => exact .inr fun _ _ => .checkNone m hp hi hl
  | checkDone m T hp hi hl hT => exact .inr fun _ _ => .checkDone m T hp hi hl hT
  | checkMismatch m T hp hi hl hT => exact .inr fun _ _ => .checkMismatch m T hp hi hl hT

/-! ### The step of the machine -/

/-- The machine takes the step to its second argument. -/
def StepsTo (s t : State) : Prop := step s = .next t

/-- Where the host leaves the step to the decoder, what the decoder's move passes over the machine's step does. -/
theorem DecoderMove.step_passesRawTpb {s s' t : State} (hm : DecoderMove s' t) (hc : s'.phase ≠ .commit)
    (hstep : ∀ r v, step (s.withRawTpb r v) = decoderStep (s'.withRawTpb r v)) : PassesRawTpb StepsTo s t :=
  (hm.passesRawTpb hc).imp (fun hw r v => (hstep r v).trans (hw r v).decoderStep_eq)
    fun hk r v => (hstep r v).trans (hk r v).decoderStep_eq

/-- A step other than COMMIT reads neither field, whoever moves: RESET clears them, START and a wait leave them, and
the decoder passes them over. -/
theorem step_passesRawTpb {s t : State} (hc : s.phase = .commit → ∃ rest, s.host = .reset :: rest)
    (h : step s = .next t) : PassesRawTpb StepsTo s t := by
  have hcommit (hr : ∀ rest, s.host ≠ .reset :: rest) : s.phase ≠ .commit := fun hp => (hc hp).elim hr
  obtain ⟨hh, hm⟩ | ⟨m, rest, hh, hp, rfl⟩ | ⟨rest, hh, rfl⟩ | ⟨rest, hh, hq, rfl⟩ | ⟨rest, hh, hq, hm⟩ |
    ⟨rest, hh, he, rfl⟩ | ⟨rest, hh, he, hm⟩ := step_cases h
  · exact hm.step_passesRawTpb (hcommit (by simp [hh])) fun r v => step_nil (s := s.withRawTpb r v) hh
  · exact .inr fun r v => step_start_idle (s := s.withRawTpb r v) hh hp
  · exact .inl fun r v => step_reset (s := s.withRawTpb r v) hh
  · exact .inr fun r v => step_wait_quiescent (s := s.withRawTpb r v) hh hq
  · exact hm.step_passesRawTpb (hcommit (by simp [hh])) fun r v => step_wait_decoder (s := s.withRawTpb r v) hh hq
  · exact .inr fun r v => step_awaitEnd_ended (s := s.withRawTpb r v) hh he
  · exact hm.step_passesRawTpb (hcommit (by simp [hh])) fun r v => step_awaitEnd_decoder (s := s.withRawTpb r v) hh he

/-- In COMMIT a host that neither starts nor resets lets the decoder commit the block; the host's moves still to come
do not depend on the two fields. -/
theorem step_commit {s : State} (hp : s.phase = .commit) (hs : ∀ m rest, s.host ≠ .start m :: rest)
    (hr : ∀ rest, s.host ≠ .reset :: rest) :
    ∃ rest, ∀ r v, step (s.withRawTpb r v) = .next (commitStep ({ s with host := rest }.withRawTpb r v)) := by
  cases hh : s.host with
  | nil => exact ⟨s.host, fun r v => (step_nil (s := s.withRawTpb r v) hh).trans (decoderStep_commit hp)⟩
  | cons move rest =>
    cases move with
    | start m => exact absurd hh (hs m rest)
    | reset => exact absurd hh (hr rest)
    | wait =>
      exact ⟨rest, fun r v => (step_wait_decoder (s := s.withRawTpb r v) hh (by simp [hp, Phase.quiescent])).trans
        (decoderStep_commit hp)⟩
    | awaitEnd =>
      exact ⟨s.host, fun r v => (step_awaitEnd_decoder (s := s.withRawTpb r v) hh (by simp [hp, Phase.ended])).trans
        (decoderStep_commit hp)⟩

/-- Settles O57: COMMIT copies the two fields into its block, every other step passes over them, and neither the status
view nor the result has them. -/
theorem descriptorFieldsArePassedThrough : Obligations.DescriptorFieldsArePassedThrough := by
  intro s
  refine ⟨fun hp hs hr => ?_, fun hc t h => step_passesRawTpb hc h, fun _ _ => ⟨rfl, rfl⟩⟩
  obtain ⟨rest, hstep⟩ := step_commit hp hs hr
  exact ⟨commitStep { s with host := rest }, ⟨s.raw, s.tpb, s.pend⟩, hstep⟩

end Sys2Proof.Machine
end

section
/-! PROOF of the family 43_event_words.md: the dispatch on an event word (R180 to R189), and the COMMIT step (R190). -/

namespace Sys2Proof.Machine

/-! ### The fields of an event word as numbers (30_encoding.md R98) -/

theorem toNat_reservedHighBit (w : Word) : (reservedHighBit w).toNat = w.toNat / 2 ^ 31 := by
  have := w.isLt
  rw [reservedHighBit, BitVec.getLsbD, Nat.toNat_testBit]
  omega

theorem toNat_overflowFlag (w : Word) : (overflowFlag w).toNat = w.toNat / 2 ^ 30 % 2 := by
  rw [overflowFlag, BitVec.getLsbD, Nat.toNat_testBit]

theorem gapFlagOf_eq_toNat (w : Word) : gapFlagOf w = (w.toNat / 2 ^ 29 % 2 == 1) := by
  rw [gapFlagOf, BitVec.getLsbD, Nat.testBit_eq_decide_div_mod_eq]
  rfl

theorem toNat_channelCodeOf (w : Word) : (channelCodeOf w).toNat = w.toNat / 2 ^ 24 % 32 := by
  rw [channelCodeOf, BitVec.extractLsb'_toNat, Nat.shiftRight_eq_div_pow]

theorem toNat_payloadOf (w : Word) : (payloadOf w).toNat = w.toNat % 2 ^ 24 := by
  rw [payloadOf, BitVec.extractLsb'_toNat, Nat.shiftRight_zero]

/-! ### The word of a rejected event word (60_exceptions.md R228) -/

/-- No bit of a word with the reserved bit set is lost in its class. -/
theorem encode_evtRsv_fields {w : Word} (hr : reservedHighBit w = true) :
    encode (.evtRsv (overflowFlag w) (gapFlagOf w) (channelCodeOf w) (payloadOf w)) = w := by
  have h31 : w[31] = true := hr
  apply BitVec.eq_of_getLsbD_eq
  intro i hi
  rw [encode_evtRsv_getLsbD]
  interval_cases i <;> simp [overflowFlag, gapFlagOf, channelCodeOf, payloadOf, h31]

/-! ### The fields of an event as numbers (43_event_words.md R186, R187) -/

/-- The subtraction does not wrap from code 2 on. -/
theorem channelOf_eq_ofNat {code : BitVec 5} (hc : 2 ≤ code.toNat) :
    channelOf code = BitVec.ofNat 5 (code.toNat - 2) := by
  have hle : 2#5 ≤ code := hc
  have := code.isLt
  rw [← BitVec.toNat_inj, channelOf, BitVec.toNat_sub_of_le hle, BitVec.toNat_ofNat]
  exact (Nat.mod_eq_of_lt (by omega)).symm

/-- The merge of counter and time field is exact: the two do not overlap. -/
theorem timestampOf_eq_ofNat (ovf time : BitVec 24) :
    timestampOf ovf time = BitVec.ofNat 48 (ovf.toNat * 2 ^ 24 + time.toNat) := by
  have := ovf.isLt
  have := time.isLt
  rw [← BitVec.toNat_inj, timestampOf, BitVec.toNat_append, ← Nat.shiftLeft_add_eq_or_of_lt time.isLt,
    Nat.shiftLeft_eq, BitVec.toNat_ofNat, Nat.mod_eq_of_lt (by omega)]

/-- The event of an event word (R185), on the number of the word. -/
theorem eventOf_fields_eq_ofNat {w : Word} (ovf : BitVec 24) (hc : 2 ≤ (channelCodeOf w).toNat) :
    eventOf ovf (gapFlagOf w) (channelCodeOf w) (payloadOf w) =
      { channel := BitVec.ofNat 5 (w.toNat / 2 ^ 24 % 32 - 2)
        timestamp := BitVec.ofNat 48 (ovf.toNat * 2 ^ 24 + w.toNat % 2 ^ 24)
        gap := w.toNat / 2 ^ 29 % 2 == 1 } := by
  rw [eventOf, channelOf_eq_ofNat hc, timestampOf_eq_ofNat, toNat_channelCodeOf, toNat_payloadOf, gapFlagOf_eq_toNat]

/-! ### The EVT step on the settled classes -/

/-- The error record carries the very word of the input (R181). -/
theorem decoderStep_evt_reserved {s : State} {w : Word} (hp : s.phase = .evt) (hw : s.buf[s.widx]? = some w)
    (hr : reservedHighBit w = true) :
    decoderStep s = .next (raiseError .invalidEventRecord .event s.wordOffset w s) := by
  rw [(DecoderMove.evtRsv w hp hw hr).decoderStep_eq, encode_evtRsv_fields hr]

/-- Settles O29: the fields are numbers of the word, and each of the three classes is one move of the decoder. -/
theorem eventStepDecomposesTheWord : Obligations.EventStepDecomposesTheWord := by
  intro s w hh hp hw
  rw [step_nil hh, ← toNat_reservedHighBit, ← toNat_overflowFlag, Bool.toNat_eq_one, Bool.toNat_eq_zero,
    Bool.toNat_eq_one, Bool.toNat_eq_zero]
  refine ⟨fun hr => decoderStep_evt_reserved hp hw hr, fun hr ho => ?_, fun hr ho hc => ?_⟩
  · rw [← payloadOf_eq_ofNat]
    exact (DecoderMove.ovf w hp hw hr ho).decoderStep_eq
  · rw [← toNat_channelCodeOf] at hc
    rw [← eventOf_fields_eq_ofNat s.ovf hc]
    exact (DecoderMove.evt w hp hw hr ho hc).decoderStep_eq

/-! ### The COMMIT step -/

/-- Settles O31: with no host move the step in COMMIT is the commit, which makes the list of blocks one longer. -/
theorem commitStepAppendsOneBlock : Obligations.CommitStepAppendsOneBlock := fun s hh hp =>
  ⟨commitStep s, (step_nil hh).trans (decoderStep_commit hp), commitStep_bcount s, rfl⟩

end Sys2Proof.Machine
end

section
/-! PROOF of the family 60_exceptions.md: the steps that enter ERROR and write the error record (R220, R221, R227,
R228), and the quiescence of ERROR (R231). -/

namespace Sys2Proof.Machine

/-! ### The framing steps (40_stream_framing.md) -/

/-- Settles O25: BODY is a read of the whole body, short, of fewer than two words, or of the block that is opened. -/
theorem bodyStepFetchesTheBlock : Obligations.BodyStepFetchesTheBlock := by
  intro s m L hh hp hi hl
  rw [step_nil hh, decoderStep_body hp hi hl]
  exact ⟨bodyStep_short hi, bodyStep_tooShort hi, fun hs hL =>
    ⟨wordsOf (m.read s.pos (4 * L.toNat)), wordsOf_read_length hs, fun _ => wordsOf_read_getElem? hs,
      bodyStep_open hi hs hL⟩⟩

/-- Settles O26: each outcome of the CHECK step is one move of the decoder. -/
theorem checkStepComparesTheTrailer : Obligations.CheckStepComparesTheTrailer := by
  intro s m hh hp hi
  rw [step_nil hh]
  exact ⟨fun hl => (DecoderMove.checkNone m hp hi hl).decoderStep_eq,
    fun T hl hT => (DecoderMove.checkDone m T hp hi hl hT).decoderStep_eq,
    fun T hl hT => (DecoderMove.checkMismatch m T hp hi hl hT).decoderStep_eq⟩

/-- Settles O22: in each of its phases TRAILER is the framing step of that phase. -/
theorem trailerWordEndsTheDecode : Obligations.TrailerWordEndsTheDecode := fun _ _ _ hi =>
  ⟨fun hp hs => (exec_trailer_len hp).trans (lenStep_read hi hs),
    fun hp hs => (exec_trailer_body hp).trans (bodyStep_short hi hs),
    fun hp hT => (exec_trailer_check hp).trans (checkStep_match hi hT),
    fun hp hT => (exec_trailer_check hp).trans (checkStep_mismatch hi hT)⟩

/-! ### The word of a rejected header and of a low channel code (R228) -/

/-- No bit of a header with bit 31 set is lost in its class. -/
theorem encode_hdrBad_discardedOf {w : Word} (hr : reservedHighBit w = true) :
    encode (.hdrBad (discardedOf w)) = w := by
  have h31 : w[31] = true := hr
  apply BitVec.eq_of_getLsbD_eq
  intro i hi
  rw [encode_hdrBad_getLsbD]
  split
  · next h => simp [discardedOf, h]
  · next h =>
    obtain rfl : i = 31 := by omega
    simp [h31]

/-- No bit of a word with reserved bit and overflow flag clear is lost in its fields. -/
theorem encode_evtLowch_fields {w : Word} (hr : reservedHighBit w = false) (ho : overflowFlag w = false) :
    encode (.evtLowch (gapFlagOf w) (channelCodeOf w) (payloadOf w)) = w := by
  have h31 : w[31] = false := hr
  have h30 : w[30] = false := ho
  apply BitVec.eq_of_getLsbD_eq
  intro i hi
  rw [encode_evtLowch_getLsbD, encode_evt_getLsbD]
  interval_cases i <;> simp [gapFlagOf, channelCodeOf, payloadOf, h30, h31]

/-! ### The HDR step, and the EVT step on channel codes 0 and 1 -/

/-- The error record carries the very word of the input (42_header.md R171). -/
theorem decoderStep_hdr_reserved {s : State} {w : Word} (hp : s.phase = .hdr) (hw : s.buf[s.widx]? = some w)
    (hr : reservedHighBit w = true) :
    decoderStep s = .next (raiseError .invalidEventRecord .header s.wordOffset w s) := by
  rw [(DecoderMove.hdrBad w hp hw hr).decoderStep_eq, encode_hdrBad_discardedOf hr]

/-- Settles O28: the quotient is the reserved bit, and its two values are the two moves of the HDR step. -/
theorem headerStepChecksOnlyTheReservedBit : Obligations.HeaderStepChecksOnlyTheReservedBit := by
  intro s w hh hp hw
  rw [step_nil hh, ← toNat_reservedHighBit, Bool.toNat_eq_one, Bool.toNat_eq_zero]
  exact ⟨decoderStep_hdr_reserved hp hw, fun hr => (DecoderMove.hdr w hp hw hr).decoderStep_eq⟩

/-- The error record carries the very word of the input (43_event_words.md R191). -/
theorem decoderStep_evt_lowChannel {s : State} {w : Word} (hp : s.phase = .evt) (hw : s.buf[s.widx]? = some w)
    (hr : reservedHighBit w = false) (ho : overflowFlag w = false) (hc : (channelCodeOf w).toNat < 2) :
    decoderStep s = .next (raiseError .lowChannel .event s.wordOffset w s) := by
  rw [(DecoderMove.evtLowch w hp hw hr ho hc).decoderStep_eq, encode_evtLowch_fields hr ho]

/-- Settles O30: the three numbers are the fields R191 tests. -/
theorem lowChannelCodeRaisesItsError : Obligations.LowChannelCodeRaisesItsError := by
  intro s w hh hp hw
  rw [step_nil hh, ← toNat_reservedHighBit, ← toNat_overflowFlag, ← toNat_channelCodeOf, Bool.toNat_eq_zero,
    Bool.toNat_eq_zero]
  exact decoderStep_evt_lowChannel hp hw

/-! ### ERROR is quiescent (R231) -/

theorem decoderStep_error {s : State} (hp : s.phase = .error) : decoderStep s = .fault .quiescent :=
  decoderStep_quiescent (by simp [hp, Phase.quiescent])

theorem step_start_error {s : State} {m : Memory} {rest : List HostMove} (h : s.host = .start m :: rest)
    (hp : s.phase = .error) : step s = .fault .startOutsideIdle :=
  (step_start h).trans (if_neg (by simp [hp]))

/-- In ERROR the host alone steps: by RESET, or by a wait that changes nothing but its own list of moves. -/
theorem step_error_cases {s t : State} (hp : s.phase = .error) (h : step s = .next t) :
    (∃ rest, s.host = .reset :: rest ∧ t = { State.reset with host := rest }) ∨
      ∃ rest, (s.host = .wait :: rest ∨ s.host = .awaitEnd :: rest) ∧ t = { s with host := rest } := by
  cases hh : s.host with
  | nil => rw [step_nil hh, decoderStep_error hp] at h; cases h
  | cons move rest =>
    cases move with
    | start m => rw [step_start_error hh hp] at h; cases h
    | reset => rw [step_reset hh] at h; cases h; exact .inl ⟨rest, rfl, rfl⟩
    | wait =>
      rw [step_wait_quiescent hh (by simp [hp, Phase.quiescent])] at h; cases h
      exact .inr ⟨rest, .inl rfl, rfl⟩
    | awaitEnd =>
      rw [step_awaitEnd_ended hh (by simp [hp, Phase.ended])] at h; cases h
      exact .inr ⟨rest, .inr rfl, rfl⟩

/-- Settles O59: the decoder and START answer a fault, and without RESET only a wait is left. -/
theorem errorPhaseIsQuiescent : Obligations.ErrorPhaseIsQuiescent := by
  intro s hp
  refine ⟨fun t => by simp [decoderStep_error hp], fun m rest t hh => by simp [step_start_error hh hp],
    fun t hr h => ?_⟩
  obtain ⟨rest, hh, -⟩ | ⟨rest, -, rfl⟩ := step_error_cases hp h
  · exact absurd hh (hr rest)
  · exact ⟨hp, rfl⟩

end Sys2Proof.Machine
end

section
/-! PROOF of the timestamps and channels of an event (43_event_words.md R186, R187), and of the invariant of
10_state.md R44: reset has it, and every step keeps it. -/

namespace Sys2Proof.Machine

/-! ### The numbers of an event -/

theorem toNat_channelOf {code : BitVec 5} (hc : 2 ≤ code.toNat) : (channelOf code).toNat = code.toNat - 2 := by
  have := code.isLt
  rw [channelOf_eq_ofNat hc, BitVec.toNat_ofNat, Nat.mod_eq_of_lt (by omega)]

theorem channelOf_le {code : BitVec 5} (hc : 2 ≤ code.toNat) : (channelOf code).toNat ≤ 29 := by
  have := code.isLt
  rw [toNat_channelOf hc]
  omega

theorem toNat_timestampOf (ovf time : BitVec 24) :
    (timestampOf ovf time).toNat = ovf.toNat * 2 ^ 24 + time.toNat := by
  have := ovf.isLt
  have := time.isLt
  rw [timestampOf_eq_ofNat, BitVec.toNat_ofNat, Nat.mod_eq_of_lt (by omega)]

theorem toNat_timestamp64 (e : Event) : e.timestamp64.toNat = e.timestamp.toNat :=
  BitVec.toNat_setWidth_of_le (by decide)

/-- Settles O32: neither the subtraction nor the merge wraps, and the wider output only adds zeros. -/
theorem timestampsAndChannelsAreExact : Obligations.TimestampsAndChannelsAreExact := fun ovf time gap code hc =>
  ⟨toNat_channelOf hc, channelOf_le hc, toNat_timestampOf ovf time,
    (toNat_timestamp64 (eventOf ovf gap code time)).trans (toNat_timestampOf ovf time), rfl⟩

/-! ### The overflow words before the cursor (10_state.md R44 item 5) -/

theorem isOverflowWord_eq (w : Word) : isOverflowWord w = (!reservedHighBit w && overflowFlag w) := by
  have := w.isLt
  rw [isOverflowWord, Bool.eq_iff_iff, beq_iff_eq, Bool.and_eq_true, Bool.not_eq_true', ← Bool.toNat_eq_zero,
    ← Bool.toNat_eq_one, toNat_reservedHighBit, toNat_overflowFlag]
  omega

theorem overflowWords_advance {s : State} {w : Word} (hw : s.buf[s.widx]? = some w) (h2 : 2 ≤ s.widx) :
    (advance s).overflowWords = s.overflowWords + (isOverflowWord w).toNat := by
  have hlen : s.widx < s.buf.length := (List.getElem?_eq_some_iff.1 hw).1
  simp only [State.overflowWords, advance_buf, advance_widx]
  rw [List.take_add_one, hw, List.drop_append_of_le_length (by rw [List.length_take]; omega), List.countP_append]
  cases hv : isOverflowWord w <;> simp [hv]

/-- The descriptor and the header are not counted. -/
theorem overflowWords_advance_hdr {s : State} (h : s.widx = 1) : (advance s).overflowWords = 0 := by
  simp [State.overflowWords, h]

/-! ### The parts of the invariant -/

/-- What the invariant asks in every phase but IDLE. -/
structure State.StreamInv (s : State) : Prop where
  aligned : s.pos % 4 = 0
  inBounds : ∀ m, s.input = some m → s.pos ≤ m.length
  bound : s.input.isSome
  lengthWord : ∀ m L, s.input = some m → s.lastLen = some L → m.wordAt s.lenOff = some L
  widxBound : s.widx ≤ s.blkLen.toNat
  pendChannels : ∀ e ∈ s.pend, e.channel.toNat ≤ 29
  blockChannels : ∀ b ∈ s.blocks, ∀ e ∈ b.events, e.channel.toNat ≤ 29

/-- What the invariant asks of an open block: it is the one the last length word announced, and its words are those of
the input. -/
structure State.BlockInv (s : State) : Prop where
  twoWords : 2 ≤ s.blkLen.toNat
  length_buf : s.buf.length = s.blkLen.toNat
  base : s.blkBase + 4 * s.blkLen.toNat = s.pos
  lastLen : s.lastLen = some s.blkLen
  words : ∀ m, s.input = some m → ∀ i, i < s.buf.length → m.wordAt (s.blkBase + 4 * i) = s.buf[i]?

theorem State.Inv.stream {s : State} (h : s.Inv) (hp : s.phase ≠ .idle) : s.StreamInv :=
  { h with bound := h.bound hp, pendChannels := h.channels.1, blockChannels := h.channels.2 }

theorem State.Inv.openedBlock {s : State} (h : s.Inv) (hp : s.phase.inBlock = true) : s.BlockInv := by
  obtain ⟨h2, hlen, hbase, hlast⟩ := h.block hp
  exact ⟨h2, hlen, hbase, hlast, h.blockWords hp⟩

theorem State.Inv.code_eq_zero {s : State} (h : s.Inv) (hp : s.phase ≠ .error) : s.err.code = 0 :=
  not_not.1 (mt h.errorCode.1 hp)

/-- The invariant of a state in no block. -/
theorem State.StreamInv.inv {s : State} (h : s.StreamInv) (hp : s.phase.inBlock = false)
    (hbody : s.phase = .body → s.lastLen.isSome ∧ s.lenOff + 4 = s.pos)
    (hdone : s.phase = .done → ∀ m, s.input = some m →
      s.residual = m.length - s.pos ∧ ∃ T : Word, s.lastLen = some T ∧ s.blocks.length = T.toNat)
    (herr : s.err.code ≠ 0 ↔ s.phase = .error) : s.Inv where
  aligned := h.aligned
  inBounds := h.inBounds
  bound _ := h.bound
  lengthWord := h.lengthWord
  bodyLength := hbody
  block hb := by simp [hp] at hb
  blockWords hb := by simp [hp] at hb
  atDesc hb := by simp [hb, Phase.inBlock] at hp
  atHdr hb := by simp [hb, Phase.inBlock] at hp
  atEvt hb := by simp [hb, Phase.inBlock] at hp
  atCommit hb := by simp [hb, Phase.inBlock] at hp
  nothingPending hb := by rcases hb with hb | hb <;> simp [hb, Phase.inBlock] at hp
  pendCount hb := by rcases hb with hb | hb <;> simp [hb, Phase.inBlock] at hp
  errorCode := herr
  widxBound := h.widxBound
  channels := ⟨h.pendChannels, h.blockChannels⟩
  atDone := hdone

/-- Where the word cursor stands in each phase of a block, and what is pending there (10_state.md R44 items 4 and 5). -/
inductive State.AtCursor (s : State) : Prop where
  | desc : s.phase = .desc → s.widx = 0 → s.pend = [] → s.AtCursor
  | hdr : s.phase = .hdr → s.widx = 1 → s.pend = [] → s.AtCursor
  | evt : s.phase = .evt → 2 ≤ s.widx → s.widx < s.blkLen.toNat →
      s.pend.length + s.overflowWords = s.widx - 2 → s.AtCursor
  | commit : s.phase = .commit → s.widx = s.blkLen.toNat → s.pend.length + s.overflowWords = s.widx - 2 → s.AtCursor

theorem State.AtCursor.inBlock {s : State} (h : s.AtCursor) : s.phase.inBlock = true := by
  cases h <;> simp [Phase.inBlock, *]

/-- The invariant of a state in a block. -/
theorem State.StreamInv.inv_block {s : State} (h : s.StreamInv) (hb : s.BlockInv) (he : s.err.code = 0)
    (hc : s.AtCursor) : s.Inv where
  aligned := h.aligned
  inBounds := h.inBounds
  bound _ := h.bound
  lengthWord := h.lengthWord
  bodyLength hp := by cases hc <;> simp_all
  block _ := ⟨hb.twoWords, hb.length_buf, hb.base, hb.lastLen⟩
  blockWords _ := hb.words
  atDesc hp := by cases hc <;> simp_all
  atHdr hp := by cases hc <;> simp_all
  atEvt hp := by cases hc <;> simp_all
  atCommit hp := by cases hc <;> simp_all
  nothingPending hp := by cases hc <;> simp_all
  pendCount hp := by cases hc <;> simp_all
  errorCode := ⟨fun hne => absurd he hne, fun hp => by cases hc <;> simp_all⟩
  widxBound := h.widxBound
  channels := ⟨h.pendChannels, h.blockChannels⟩
  atDone hp := by cases hc <;> simp_all

/-! ### The invariant after each operation -/

theorem State.StreamInv.inv_raiseError {s : State} {e : ErrorName} (h : s.StreamInv) (he : e ≠ .none)
    (sl : ErrSlot) (off : Nat) (w : Word) : (raiseError e sl off w s).Inv :=
  have hstream : (raiseError e sl off w s).StreamInv := { h with pendChannels := by simp }
  hstream.inv rfl (by simp) (by simp) ⟨fun _ => rfl, fun _ => mt (code_eq_zero_iff e).1 he⟩

theorem State.StreamInv.inv_endOfStream {s : State} (h : s.StreamInv) (he : s.err.code = 0) :
    (endOfStream s).Inv :=
  have hstream : (endOfStream s).StreamInv := { h with }
  hstream.inv rfl (by simp) (by simp) (by simp [he])

/-- Whole words read leave the cursor aligned and in bounds. -/
theorem State.StreamInv.read {s : State} {m : Memory} {n : Nat} (h : s.StreamInv) (hi : s.input = some m)
    (hn : s.pos + 4 * n ≤ m.length) : State.StreamInv { s with pos := s.pos + 4 * n } :=
  { h with
    aligned := by have := h.aligned; simp only; omega
    inBounds := fun m' hi' => by cases hi.symm.trans hi'; exact hn }

theorem State.StreamInv.count {s : State} (h : s.StreamInv) (n : Nat) :
    State.StreamInv { s with residual := n } := { h with }

theorem State.StreamInv.inv_recordLength {s : State} {m : Memory} {w : Word} (h : s.StreamInv)
    (hi : s.input = some m) (hw : m.wordAt s.pos = some w) (he : s.err.code = 0) : (recordLength w s).Inv :=
  have hstream : (recordLength w s).StreamInv :=
    { h.read (n := 1) hi (Memory.wordAt_some_bound hw) with
      lengthWord := fun m' L hi' hL => by cases hi.symm.trans hi'; cases hL; exact hw }
  hstream.inv rfl (fun _ => ⟨rfl, rfl⟩) (by simp [recordLength]) (by simp [recordLength, he])

/-- The words of the opened block are those of the input (20_memory.md R64). -/
theorem State.StreamInv.inv_openBlock {s : State} {m : Memory} {L : Word} (h : s.StreamInv) (hi : s.input = some m)
    (hl : s.lastLen = some L) (hs : s.pos + 4 * L.toNat ≤ m.length) (hL : 2 ≤ L.toNat) (he : s.err.code = 0) :
    (openBlock L s.pos (m.read s.pos (4 * L.toNat)) { s with pos := s.pos + 4 * L.toNat }).Inv := by
  have hstream := h.read hi hs
  refine State.StreamInv.inv_block { hstream with widxBound := Nat.zero_le _, pendChannels := by simp }
    ⟨hL, wordsOf_read_length hs, rfl, hl, fun m' hi' i hlt => ?_⟩ he (.desc rfl rfl rfl)
  cases hi.symm.trans hi'
  exact (wordsOf_read_getElem? hs (by simpa [wordsOf_read_length hs] using hlt)).symm

/-- The header and the event words advance the cursor; the count is that of the words passed. -/
theorem State.StreamInv.inv_advance {s : State} (h : s.StreamInv) (hb : s.BlockInv) (he : s.err.code = 0)
    (h1 : 1 ≤ s.widx) (hlt : s.widx < s.blkLen.toNat)
    (hcount : s.pend.length + (advance s).overflowWords = s.widx - 1) : (advance s).Inv := by
  refine State.StreamInv.inv_block { h with widxBound := hlt } { hb with } he ?_
  by_cases hmore : s.widx + 1 < s.blkLen.toNat
  · exact .evt (advance_more hmore) (Nat.succ_le_succ h1) hmore hcount
  · exact .commit (advance_last (Nat.not_lt.1 hmore)) (Nat.le_antisymm hlt (Nat.not_lt.1 hmore)) hcount

theorem State.StreamInv.inv_commitStep {s : State} (h : s.StreamInv) (he : s.err.code = 0) : (commitStep s).Inv := by
  refine State.StreamInv.inv { h with pendChannels := by simp, blockChannels := fun b hb => ?_ } rfl (by simp)
    (by simp) (by simp [he])
  rw [commitStep_blocks, List.mem_append, List.mem_singleton] at hb
  obtain hb | rfl := hb
  · exact h.blockChannels b hb
  · exact h.pendChannels

/-! ### Every step keeps the invariant -/

theorem DecoderMove.not_quiescent {s t : State} (h : DecoderMove s t) : s.phase.quiescent = false := by
  cases h <;> simp [Phase.quiescent, *]

/-- With no host move to come a step is one of the decoder's moves. -/
theorem step_nil_move {s t : State} (hh : s.host = []) (h : step s = .next t) : DecoderMove s t :=
  decoderStep_move ((step_nil hh).symm.trans h)

/-- With no host move to come the decoder's move is the step. -/
theorem DecoderMove.step_eq {s t : State} (h : DecoderMove s t) (hh : s.host = []) : step s = .next t :=
  (step_nil hh).trans h.decoderStep_eq

theorem DecoderMove.keeps_inv {s t : State} (hm : DecoderMove s t) (hs : s.Inv) : t.Inv := by
  have hq := hm.not_quiescent
  have h := hs.stream fun hp => by simp [hp, Phase.quiescent] at hq
  have he := hs.code_eq_zero fun hp => by simp [hp, Phase.quiescent] at hq
  cases hm with
  | lenShort m hp hi hlt => exact h.inv_endOfStream he
  | lenWord m w hp hi hw => exact h.inv_recordLength hi hw he
  | bodyShort m L hp hi hl hlt => exact h.inv_endOfStream he
  | bodyTooShort m L hp hi hl hle hL => exact (h.read hi hle).inv_raiseError (by decide) _ _ _
  | bodyOpen m L hp hi hl hle hL => exact h.inv_openBlock hi hl hle hL he
  | desc w hp hw hv =>
    have hb := hs.openedBlock (by simp [hp, Phase.inBlock])
    have h0 := hs.atDesc hp
    exact State.StreamInv.inv_block { h with widxBound := by have := hb.twoWords; simp only; omega } { hb with } he
      (.hdr rfl (by simp only [h0]) (hs.nothingPending (.inl hp)))
  | descBad w hp hw hv => exact h.inv_raiseError (by decide) _ _ _
  | hdr w hp hw hr =>
    have hb := hs.openedBlock (by simp [hp, Phase.inBlock])
    have h1 := hs.atHdr hp
    exact h.inv_advance hb he (by omega) (by have := hb.twoWords; omega)
      (by simp [hs.nothingPending (.inr hp), overflowWords_advance_hdr h1, h1])
  | hdrBad w hp hw hr => exact h.inv_raiseError (by decide) _ _ _
  | evtRsv w hp hw hr => exact h.inv_raiseError (by decide) _ _ _
  | ovf w hp hw hr ho =>
    have hb := hs.openedBlock (by simp [hp, Phase.inBlock])
    obtain ⟨h2, hlt⟩ := hs.atEvt hp
    have hcount := hs.pendCount (.inl hp)
    have hnext : (advance s).overflowWords = s.overflowWords + 1 := by
      simp [overflowWords_advance hw h2, isOverflowWord_eq, hr, ho]
    refine State.StreamInv.inv_advance { h with } { hb with } he (by simp only; omega) hlt ?_
    change s.pend.length + (advance s).overflowWords = s.widx - 1
    omega
  | evtLowch w hp hw hr ho hc => exact h.inv_raiseError (by decide) _ _ _
  | evt w hp hw hr ho hc =>
    have hb := hs.openedBlock (by simp [hp, Phase.inBlock])
    obtain ⟨h2, hlt⟩ := hs.atEvt hp
    have hcount := hs.pendCount (.inl hp)
    have hnext : (advance s).overflowWords = s.overflowWords := by
      simp [overflowWords_advance hw h2, isOverflowWord_eq, ho]
    refine State.StreamInv.inv_advance { h with pendChannels := fun e hmem => ?_ } { hb with } he
      (by simp only; omega) hlt ?_
    · rw [List.mem_append, List.mem_singleton] at hmem
      obtain hmem | rfl := hmem
      · exact h.pendChannels e hmem
      · exact channelOf_le hc
    · change (s.pend ++ [_]).length + (advance s).overflowWords = s.widx - 1
      rw [List.length_append, List.length_singleton]
      omega
  | commit hp => exact h.inv_commitStep he
  | checkNone m hp hi hl => exact (h.count _).inv_raiseError (by decide) _ _ _
  | checkDone m T hp hi hl hT =>
    refine State.StreamInv.inv { h with } rfl (by simp) (fun _ m' hi' => ?_) (by simp [he])
    cases hi.symm.trans hi'
    exact ⟨rfl, T, hl, hT.symm⟩
  | checkMismatch m T hp hi hl hT => exact (h.count _).inv_raiseError (by decide) _ _ _

/-- Settles O35: nothing is bound, nothing is pending and no block is open. -/
theorem resetStateMeetsTheInvariant : Obligations.ResetStateMeetsTheInvariant where
  aligned := rfl
  inBounds := by simp
  bound := by simp
  lengthWord := by simp
  bodyLength := by simp
  block := by simp [Phase.inBlock]
  blockWords := by simp
  atDesc := by simp
  atHdr := by simp
  atEvt := by simp
  atCommit := by simp
  nothingPending := by simp
  pendCount := by simp
  errorCode := by simp [ErrorRecord.reset]
  widxBound := by simp
  channels := by simp
  atDone := by simp

/-- START leaves the pending events, the block's fields and the error record as IDLE has them. -/
theorem State.Inv.start {s : State} (h : s.Inv) (hp : s.phase = .idle) (m : Memory) (rest : List HostMove) :
    State.Inv { s with host := rest, input := some m, pos := 0, lastLen := none, lenOff := 0, blocks := [],
                       residual := 0, phase := .len } := by
  have he := h.code_eq_zero (by simp [hp])
  exact State.StreamInv.inv
    { aligned := rfl, inBounds := by simp, bound := rfl, lengthWord := by simp, widxBound := h.widxBound,
      pendChannels := h.channels.1, blockChannels := by simp } rfl (by simp) (by simp) (by simp [he])

/-- The host's list of moves is no matter of the invariant. -/
theorem State.Inv.withHost {s : State} (h : s.Inv) (moves : List HostMove) : State.Inv { s with host := moves } :=
  { h with }

theorem step_keeps_inv {s t : State} (hs : s.Inv) (h : step s = .next t) : t.Inv := by
  obtain ⟨-, hm⟩ | ⟨m, rest, -, hp, rfl⟩ | ⟨rest, -, rfl⟩ | ⟨rest, -, -, rfl⟩ | ⟨rest, -, -, hm⟩ |
    ⟨rest, -, -, rfl⟩ | ⟨rest, -, -, hm⟩ := step_cases h
  · exact hm.keeps_inv hs
  · exact hs.start hp m rest
  · exact resetStateMeetsTheInvariant.withHost rest
  · exact hs.withHost rest
  · exact hm.keeps_inv (hs.withHost rest)
  · exact hs.withHost rest
  · exact hm.keeps_inv hs

/-- Settles O36: the decoder's moves keep the invariant, START and RESET establish it, and a wait touches none of it. -/
theorem everyStepKeepsTheInvariant : Obligations.EveryStepKeepsTheInvariant := fun _ _ => step_keeps_inv

end Sys2Proof.Machine
end

section
/-! PROOF that a decode ends (70_reset_and_hazards.md R271): from a state with the invariant the decoder takes a step,
and each step leaves fewer. -/

namespace Sys2Proof.Machine

/-! ### The decoder always has a move -/

/-- In a block phase the word at the cursor is there (10_state.md R44 items 3 and 4). -/
theorem State.Inv.blockWord {s : State} (h : s.Inv) (hp : s.phase = .desc ∨ s.phase = .hdr ∨ s.phase = .evt) :
    ∃ w, s.buf[s.widx]? = some w := by
  have hb := h.openedBlock (by rcases hp with hp | hp | hp <;> simp [hp, Phase.inBlock])
  have hlt : s.widx < s.blkLen.toNat := by
    have := hb.twoWords
    obtain hp | hp | hp := hp
    · have := h.atDesc hp; omega
    · have := h.atHdr hp; omega
    · exact (h.atEvt hp).2
  exact ⟨_, List.getElem?_eq_getElem (hb.length_buf ▸ hlt)⟩

theorem exists_lenMove {s : State} {m : Memory} (hp : s.phase = .len) (hi : s.input = some m) :
    ∃ t, DecoderMove s t := by
  by_cases hs : s.pos + 4 ≤ m.length
  · obtain ⟨w, hw⟩ := Option.isSome_iff_exists.1 ((m.wordAt_isSome_iff s.pos).2 hs)
    exact ⟨_, .lenWord m w hp hi hw⟩
  · exact ⟨_, .lenShort m hp hi (by omega)⟩

theorem exists_bodyMove {s : State} {m : Memory} {L : Word} (hp : s.phase = .body) (hi : s.input = some m)
    (hl : s.lastLen = some L) : ∃ t, DecoderMove s t := by
  by_cases hs : s.pos + 4 * L.toNat ≤ m.length
  · by_cases hL : L.toNat < 2
    · exact ⟨_, .bodyTooShort m L hp hi hl hs hL⟩
    · exact ⟨_, .bodyOpen m L hp hi hl hs (by omega)⟩
  · exact ⟨_, .bodyShort m L hp hi hl (by omega)⟩

theorem exists_checkMove {s : State} {m : Memory} (hp : s.phase = .check) (hi : s.input = some m) :
    ∃ t, DecoderMove s t := by
  cases hl : s.lastLen with
  | none => exact ⟨_, .checkNone m hp hi hl⟩
  | some T =>
    by_cases hT : T.toNat = s.bcount
    · exact ⟨_, .checkDone m T hp hi hl hT⟩
    · exact ⟨_, .checkMismatch m T hp hi hl hT⟩

theorem exists_descMove {s : State} {w : Word} (hp : s.phase = .desc) (hw : s.buf[s.widx]? = some w) :
    ∃ t, DecoderMove s t := by
  cases hv : descValid w with
  | true => exact ⟨_, .desc w hp hw hv⟩
  | false => exact ⟨_, .descBad w hp hw hv⟩

theorem exists_hdrMove {s : State} {w : Word} (hp : s.phase = .hdr) (hw : s.buf[s.widx]? = some w) :
    ∃ t, DecoderMove s t := by
  cases hr : reservedHighBit w with
  | true => exact ⟨_, .hdrBad w hp hw hr⟩
  | false => exact ⟨_, .hdr w hp hw hr⟩

theorem exists_evtMove {s : State} {w : Word} (hp : s.phase = .evt) (hw : s.buf[s.widx]? = some w) :
    ∃ t, DecoderMove s t := by
  obtain ⟨hr, -⟩ | ⟨hr, ho, -⟩ | ⟨hr, ho, hc, -⟩ | ⟨hr, ho, hc, -⟩ := decodeEvent_cases w
  · exact ⟨_, .evtRsv w hp hw hr⟩
  · exact ⟨_, .ovf w hp hw hr ho⟩
  · exact ⟨_, .evtLowch w hp hw hr ho hc⟩
  · exact ⟨_, .evt w hp hw hr ho hc⟩

/-- The invariant rules out every fault but that of the quiescent phases. -/
theorem State.Inv.exists_move {s : State} (h : s.Inv) (hq : s.phase.quiescent = false) : ∃ t, DecoderMove s t := by
  obtain ⟨m, hi⟩ := Option.isSome_iff_exists.1 (h.bound fun hp => by simp [hp, Phase.quiescent] at hq)
  cases hp : s.phase with
  | idle | done | error => simp [hp, Phase.quiescent] at hq
  | len => exact exists_lenMove hp hi
  | body =>
    obtain ⟨L, hl⟩ := Option.isSome_iff_exists.1 (h.bodyLength hp).1
    exact exists_bodyMove hp hi hl
  | desc => exact (h.blockWord (.inl hp)).elim fun _ => exists_descMove hp
  | hdr => exact (h.blockWord (.inr (.inl hp))).elim fun _ => exists_hdrMove hp
  | evt => exact (h.blockWord (.inr (.inr hp))).elim fun _ => exists_evtMove hp
  | commit => exact ⟨_, .commit hp⟩
  | check => exact exists_checkMove hp hi

/-! ### Every move leaves fewer steps -/

theorem stepsLeft_pos {s : State} (hq : s.phase.quiescent = false) : 0 < s.stepsLeft := by
  cases hp : s.phase with
  | idle | done | error => simp [hp, Phase.quiescent] at hq
  | len | body | desc | hdr | evt | commit | check => simp [State.stepsLeft, hp]

theorem stepsLeft_advance_lt {s : State} (hp : s.phase = .hdr ∨ s.phase = .evt) (hlt : s.widx < s.blkLen.toNat) :
    (advance s).stepsLeft < s.stepsLeft := by
  have hs := stepsLeft_words (.inr hp)
  have hu : (advance s).unread = s.unread := rfl
  by_cases hmore : s.widx + 1 < s.blkLen.toNat
  · have ht := stepsLeft_words (.inr (.inr (advance_more hmore)))
    simp only [advance_blkLen, advance_widx] at ht
    omega
  · have ht := stepsLeft_commit (advance_last (Nat.not_lt.1 hmore))
    omega

/-- A length word takes four of the unread bytes. -/
theorem stepsLeft_recordLength_lt {s : State} {m : Memory} {w : Word} (hp : s.phase = .len) (hi : s.input = some m)
    (hw : m.wordAt s.pos = some w) : (recordLength w s).stepsLeft < s.stepsLeft := by
  have := Memory.wordAt_some_bound hw
  have hu : (recordLength w s).unread = m.length - (s.pos + 4) := unread_of_input hi
  rw [stepsLeft_body rfl, hu, stepsLeft_len hp, unread_of_input hi]
  omega

/-- A body of `L` words takes `4 * L` bytes, twice the steps its words take. -/
theorem stepsLeft_openBlock_lt {s : State} {m : Memory} {L : Word} (hp : s.phase = .body) (hi : s.input = some m)
    (hs : s.pos + 4 * L.toNat ≤ m.length) (hL : 2 ≤ L.toNat) (bs : List Byte) :
    (openBlock L s.pos bs { s with pos := s.pos + 4 * L.toNat }).stepsLeft < s.stepsLeft := by
  have hu : (openBlock L s.pos bs { s with pos := s.pos + 4 * L.toNat }).unread =
      m.length - (s.pos + 4 * L.toNat) := unread_of_input hi
  rw [stepsLeft_words (.inl rfl), openBlock_blkLen, openBlock_widx, hu, stepsLeft_body hp, unread_of_input hi]
  omega

theorem DecoderMove.stepsLeft_lt {s t : State} (hm : DecoderMove s t) (hs : s.Inv) : t.stepsLeft < s.stepsLeft := by
  have hpos := stepsLeft_pos hm.not_quiescent
  cases hm with
  | lenShort m hp hi hlt => rw [stepsLeft_check rfl, stepsLeft_len hp]; omega
  | lenWord m w hp hi hw => exact stepsLeft_recordLength_lt hp hi hw
  | bodyShort m L hp hi hl hlt => rw [stepsLeft_check rfl, stepsLeft_body hp]; omega
  | bodyOpen m L hp hi hl hle hL => exact stepsLeft_openBlock_lt hp hi hle hL _
  | desc w hp hw hv =>
    have h2 := (hs.openedBlock (by simp [hp, Phase.inBlock])).twoWords
    have h0 := hs.atDesc hp
    rw [stepsLeft_words (.inl hp), stepsLeft_words (.inr (.inl rfl))]
    simp only [State.unread, h0]
    omega
  | hdr w hp hw hr =>
    have h2 := (hs.openedBlock (by simp [hp, Phase.inBlock])).twoWords
    exact stepsLeft_advance_lt (.inl hp) (hs.atHdr hp ▸ h2)
  | ovf w hp hw hr ho =>
    exact stepsLeft_advance_lt (s := { s with ovf := payloadOf w }) (.inr hp) (hs.atEvt hp).2
  | evt w hp hw hr ho hc =>
    exact stepsLeft_advance_lt (s := { s with pend := s.pend ++ [eventOf ..] }) (.inr hp) (hs.atEvt hp).2
  | commit hp => rw [stepsLeft_len rfl, stepsLeft_commit hp]; exact Nat.lt_succ_self _
  | bodyTooShort | descBad | hdrBad | evtRsv | evtLowch | checkNone | checkDone | checkMismatch => exact hpos

/-- Settles O56: a move exists, it keeps the invariant, and it leaves fewer steps. -/
theorem everyStepOfADecodeMakesProgress : Obligations.EveryStepOfADecodeMakesProgress := by
  intro s hs hh hq
  obtain ⟨t, hm⟩ := hs.exists_move hq
  refine ⟨⟨t, hm.step_eq hh, hm.keeps_inv hs, hm.stepsLeft_lt hs⟩, fun hp m hi => ?_⟩
  rw [stepsLeft_len hp, unread_of_input hi]

/-! ### Runs -/

theorem runsTo_zero (s : State) : s.runsTo 0 s := rfl

theorem runsTo_succ_iff {s u : State} {k : Nat} :
    s.runsTo (k + 1) u ↔ ∃ t, step s = .next t ∧ t.runsTo k u := by
  have hcore : core.step s = step s := rfl
  simp only [State.runsTo, Host.Core.run, hcore]
  cases step s <;> simp

theorem runsTo_succ {s t u : State} {k : Nat} (h : step s = .next t) (hr : t.runsTo k u) : s.runsTo (k + 1) u :=
  runsTo_succ_iff.2 ⟨t, h, hr⟩

theorem DecoderMove.runsTo {s t : State} (h : DecoderMove s t) (hh : s.host = []) : s.runsTo 1 t :=
  runsTo_succ (h.step_eq hh) (runsTo_zero t)

theorem runsTo_trans {s t u : State} {j k : Nat} (hj : s.runsTo j t) (hk : t.runsTo k u) : s.runsTo (j + k) u := by
  induction j generalizing s with
  | zero => cases hj; rwa [Nat.zero_add]
  | succ j ih =>
    obtain ⟨s', hstep, hj⟩ := runsTo_succ_iff.1 hj
    rw [Nat.succ_add]
    exact runsTo_succ hstep (ih hj)

/-- What every step keeps a run keeps. -/
theorem runsTo_keeps {P : State → Prop} (hP : ∀ {s t : State}, P s → step s = .next t → P t) {s t : State}
    {k : Nat} (hs : P s) (h : s.runsTo k t) : P t := by
  induction k generalizing s with
  | zero => cases h; exact hs
  | succ k ih =>
    obtain ⟨s', hstep, h⟩ := runsTo_succ_iff.1 h
    exact ih (hP hs hstep) h

/-! ### Every decode ends -/

theorem DecoderMove.keeps_host {s t : State} (h : DecoderMove s t) : t.host = s.host := by
  cases h <;> rfl

/-- What holds of EVT and of COMMIT holds of the phase after a header or an event word. -/
theorem advance_phase_elim {P : Phase → Prop} (hevt : P .evt) (hcommit : P .commit) (s : State) :
    P (advance s).phase := by
  rw [advance_phase]
  split
  · exact hevt
  · exact hcommit

theorem DecoderMove.phase_ne_idle {s t : State} (h : DecoderMove s t) : t.phase ≠ .idle := by
  cases h with
  | hdr | ovf | evt => exact advance_phase_elim (P := (· ≠ .idle)) (by decide) (by decide) _
  | _ => simp [recordLength]

theorem Phase.ended_of_quiescent {p : Phase} (hq : p.quiescent = true) (hp : p ≠ .idle) : p.ended = true := by
  cases p <;> simp_all [Phase.quiescent, Phase.ended]

/-- The bound of R271, from any state of a decode. -/
theorem exists_run_to_end (n : Nat) {s : State} (hs : s.Inv) (hh : s.host = []) (hp : s.phase ≠ .idle)
    (hn : s.stepsLeft ≤ n) : ∃ k t, k ≤ n ∧ s.runsTo k t ∧ t.phase.ended = true := by
  induction n generalizing s with
  | zero =>
    cases hq : s.phase.quiescent with
    | true => exact ⟨0, s, Nat.le_refl 0, runsTo_zero s, Phase.ended_of_quiescent hq hp⟩
    | false => have := stepsLeft_pos hq; omega
  | succ n ih =>
    cases hq : s.phase.quiescent with
    | true => exact ⟨0, s, Nat.zero_le _, runsTo_zero s, Phase.ended_of_quiescent hq hp⟩
    | false =>
      obtain ⟨t, hm⟩ := hs.exists_move hq
      have hlt := hm.stepsLeft_lt hs
      obtain ⟨k, u, hk, hr, he⟩ :=
        ih (hm.keeps_inv hs) (hm.keeps_host.trans hh) hm.phase_ne_idle (by omega)
      exact ⟨k + 1, u, by omega, runsTo_succ (hm.step_eq hh) hr, he⟩

/-- The state after START from reset. -/
def State.started (m : Memory) : State := { State.reset with input := some m, phase := .len }

theorem step_decoding (m : Memory) : step (State.decoding m) = .next (State.started m) := rfl

theorem started_inv (m : Memory) : (State.started m).Inv :=
  step_keeps_inv (resetStateMeetsTheInvariant.withHost [.start m]) (step_decoding m)

/-- Settles O53: START is one step, and from the state it leaves at most `N / 2 + 3` are left. -/
theorem everyDecodeEnds : Obligations.EveryDecodeEnds := by
  intro m
  have hleft : (State.started m).stepsLeft = m.length / 2 + 3 := rfl
  obtain ⟨k, t, hk, hr, he⟩ :=
    exists_run_to_end (m.length / 2 + 3) (started_inv m) rfl (by simp [State.started]) hleft.le
  exact ⟨k + 1, t, by omega, runsTo_succ (step_decoding m) hr, he⟩

end Sys2Proof.Machine
end

section
/-! PROOF of the encoding (30_encoding.md, 20_memory.md section 1): the encoder and the classification are inverse to
each other (R92 to R97), the class is the first row of the table of R100, the ignored bits have no effect (R103), and a
word is its bytes in little-endian order (R61). -/

namespace Sys2Proof.Machine

/-! ### Encoding the fields of a word gives the word back -/

/-- The sync check as R100 writes it, on the two top bytes it admits. -/
theorem descValid_iff_top (w : Word) :
    descValid w = true ↔ w.toNat / 2 ^ 24 = 0xC1 ∨ w.toNat / 2 ^ 24 = 0xC5 := by
  have hbyte : ∀ hi < 32, ∀ lo < 8, 8 * hi + lo &&& 0xFB = 0xC1 ↔ 8 * hi + lo = 0xC1 ∨ 8 * hi + lo = 0xC5 := by
    decide
  have := w.isLt
  have h := hbyte (w.toNat / 2 ^ 24 / 8) (by omega) (w.toNat / 2 ^ 24 % 8) (by omega)
  rwa [Nat.div_add_mod, ← descValid_iff_toNat] at h

/-- The bits that the sync check fixes. -/
theorem descValid_bit {w : Word} (hv : descValid w = true) {i : Nat} (hi : i < 8) :
    (w.getLsbD (24 + i) && (0xFB#8).getLsbD i) = (0xC1#8).getLsbD i := by
  have h := congrArg (BitVec.getLsbD · i) (beq_iff_eq.1 hv)
  simpa [topByte, hi] using h

theorem encode_desc_fields {w : Word} (hv : descValid w = true) :
    encode (.desc (rawModeOf w) (payloadOf w)) = w := by
  apply BitVec.eq_of_getLsbD_eq
  intro i hi
  rw [encode_desc_getLsbD]
  by_cases hlow : i < 24
  · simp [hlow, payloadOf]
  · have h := descValid_bit hv (i := i - 24) (by omega)
    rw [Nat.add_sub_of_le (by omega)] at h
    interval_cases i <;> simp_all [rawModeOf]

theorem encode_hdr_discardedOf {w : Word} (hr : reservedHighBit w = false) : encode (.hdr (discardedOf w)) = w := by
  apply BitVec.eq_of_getLsbD_eq
  intro i hi
  rw [encode_hdr_getLsbD]
  split
  · next h => simp [discardedOf, h]
  · next h =>
    obtain rfl : i = 31 := by omega
    exact hr.symm

theorem encode_ovf_fields {w : Word} (hr : reservedHighBit w = false) (ho : overflowFlag w = true) :
    encode (.ovf (ignoredOf w) (payloadOf w)) = w := by
  have h31 : w[31] = false := hr
  have h30 : w[30] = true := ho
  apply BitVec.eq_of_getLsbD_eq
  intro i hi
  rw [encode_ovf_getLsbD]
  interval_cases i <;> simp [ignoredOf, payloadOf, h30, h31]

/-! ### The fields of an encoded word -/

theorem payloadOf_encode_desc (r : Bool) (t : BitVec 24) : payloadOf (encode (.desc r t)) = t := by
  ext i hi
  simp [payloadOf, encode_desc_getLsbD, hi]

theorem rawModeOf_encode_desc (r : Bool) (t : BitVec 24) : rawModeOf (encode (.desc r t)) = r := by
  rw [rawModeOf, encode_desc_getLsbD]
  simp

theorem discardedOf_encode_hdr (d : BitVec 31) : discardedOf (encode (.hdr d)) = d := by
  ext i hi
  simp [discardedOf, encode_hdr_getLsbD, hi]

theorem discardedOf_encode_hdrBad (d : BitVec 31) : discardedOf (encode (.hdrBad d)) = d := by
  ext i hi
  simp [discardedOf, encode_hdrBad_getLsbD, hi]

theorem reservedHighBit_encode_hdr (d : BitVec 31) : reservedHighBit (encode (.hdr d)) = false := by
  rw [reservedHighBit, encode_hdr_getLsbD]
  rfl

theorem reservedHighBit_encode_hdrBad (d : BitVec 31) : reservedHighBit (encode (.hdrBad d)) = true := by
  rw [reservedHighBit, encode_hdrBad_getLsbD]
  rfl

/-- The fields of the word of an EVT_RSV. -/
theorem fields_encode_evtRsv (o g : Bool) (c : BitVec 5) (p : BitVec 24) :
    reservedHighBit (encode (.evtRsv o g c p)) = true ∧ overflowFlag (encode (.evtRsv o g c p)) = o ∧
      gapFlagOf (encode (.evtRsv o g c p)) = g ∧ channelCodeOf (encode (.evtRsv o g c p)) = c ∧
      payloadOf (encode (.evtRsv o g c p)) = p := by
  refine ⟨by rw [reservedHighBit, encode_evtRsv_getLsbD]; simp, by rw [overflowFlag, encode_evtRsv_getLsbD]; simp,
    by rw [gapFlagOf, encode_evtRsv_getLsbD]; simp, ?_, ?_⟩
  · ext i hi
    rw [channelCodeOf, BitVec.getElem_extractLsb', encode_evtRsv_getLsbD]
    interval_cases i <;> simp
  · ext i hi
    simp [payloadOf, encode_evtRsv_getLsbD, hi]

/-- The fields of the word of an OVF. -/
theorem fields_encode_ovf (ig : BitVec 6) (v : BitVec 24) :
    reservedHighBit (encode (.ovf ig v)) = false ∧ overflowFlag (encode (.ovf ig v)) = true ∧
      ignoredOf (encode (.ovf ig v)) = ig ∧ payloadOf (encode (.ovf ig v)) = v := by
  refine ⟨by rw [reservedHighBit, encode_ovf_getLsbD]; simp, by rw [overflowFlag, encode_ovf_getLsbD]; simp, ?_, ?_⟩
  · ext i hi
    rw [ignoredOf, BitVec.getElem_extractLsb', encode_ovf_getLsbD]
    interval_cases i <;> simp
  · ext i hi
    simp [payloadOf, encode_ovf_getLsbD, hi]

/-- The fields of the word of an EVT, which is that of an EVT_LOWCH too. -/
theorem fields_encode_evt (g : Bool) (c : BitVec 5) (t : BitVec 24) :
    reservedHighBit (encode (.evt g c t)) = false ∧ overflowFlag (encode (.evt g c t)) = false ∧
      gapFlagOf (encode (.evt g c t)) = g ∧ channelCodeOf (encode (.evt g c t)) = c ∧
      payloadOf (encode (.evt g c t)) = t := by
  refine ⟨by rw [reservedHighBit, encode_evt_getLsbD]; simp, by rw [overflowFlag, encode_evt_getLsbD]; simp,
    by rw [gapFlagOf, encode_evt_getLsbD]; simp, ?_, ?_⟩
  · ext i hi
    rw [channelCodeOf, BitVec.getElem_extractLsb', encode_evt_getLsbD]
    interval_cases i <;> simp
  · ext i hi
    simp [payloadOf, encode_evt_getLsbD, hi]

/-! ### The classes of a slot by their conditions -/

theorem decodeDescriptor_of_valid {w : Word} (hv : descValid w = true) :
    decodeDescriptor w = .desc (rawModeOf w) (payloadOf w) := if_pos hv

theorem decodeDescriptor_of_invalid {w : Word} (hv : ¬descValid w = true) : decodeDescriptor w = .descBad w :=
  if_neg hv

theorem decodeHeader_of_reserved {w : Word} (hr : reservedHighBit w = true) :
    decodeHeader w = .hdrBad (discardedOf w) := if_pos hr

theorem decodeHeader_of_clear {w : Word} (hr : reservedHighBit w = false) :
    decodeHeader w = .hdr (discardedOf w) := if_neg (by simp [hr])

theorem decodeEvent_of_reserved {w : Word} (hr : reservedHighBit w = true) :
    decodeEvent w = .evtRsv (overflowFlag w) (gapFlagOf w) (channelCodeOf w) (payloadOf w) := by
  simp [decodeEvent, decompose, hr]

theorem decodeEvent_of_overflow {w : Word} (hr : reservedHighBit w = false) (ho : overflowFlag w = true) :
    decodeEvent w = .ovf (ignoredOf w) (payloadOf w) := by
  simp [decodeEvent, decompose, hr, ho]

theorem decodeEvent_of_lowChannel {w : Word} (hr : reservedHighBit w = false) (ho : overflowFlag w = false)
    (hc : (channelCodeOf w).toNat < 2) :
    decodeEvent w = .evtLowch (gapFlagOf w) (channelCodeOf w) (payloadOf w) := by
  simp [decodeEvent, decompose, hr, ho, hc]

theorem decodeEvent_of_channel {w : Word} (hr : reservedHighBit w = false) (ho : overflowFlag w = false)
    (hc : 2 ≤ (channelCodeOf w).toNat) :
    decodeEvent w = .evt (gapFlagOf w) (channelCodeOf w) (payloadOf w) := by
  simp [decodeEvent, decompose, hr, ho, Nat.not_lt.2 hc]

/-! ### The round trips -/

theorem encode_classify (slot : Slot) (b : Bool) (w : Word) : encode (classify slot b w) = w := by
  cases slot with
  | length => cases b <;> rfl
  | descriptor =>
    rw [classify]
    by_cases hv : descValid w = true
    · rw [decodeDescriptor_of_valid hv, encode_desc_fields hv]
    · rw [decodeDescriptor_of_invalid hv, encode]
  | header =>
    rw [classify]
    cases hr : reservedHighBit w with
    | true => rw [decodeHeader_of_reserved hr, encode_hdrBad_discardedOf hr]
    | false => rw [decodeHeader_of_clear hr, encode_hdr_discardedOf hr]
  | event =>
    rw [classify]
    obtain ⟨hr, h⟩ | ⟨hr, ho, h⟩ | ⟨hr, ho, -, h⟩ | ⟨hr, ho, -, h⟩ := decodeEvent_cases w
    · rw [h, encode_evtRsv_fields hr]
    · rw [h, encode_ovf_fields hr ho]
    · rw [h, encode_evtLowch_fields hr ho]
    · rw [h]
      exact encode_evtLowch_fields hr ho

theorem classify_wellFormed (slot : Slot) (b : Bool) (w : Word) : (classify slot b w).wellFormed = true := by
  cases slot with
  | length => cases b <;> rfl
  | descriptor =>
    rw [classify]
    by_cases hv : descValid w = true
    · rw [decodeDescriptor_of_valid hv, Instr.wellFormed]
    · rw [decodeDescriptor_of_invalid hv]
      simpa [Instr.wellFormed, descValid_iff_top] using hv
  | header =>
    rw [classify, decodeHeader]
    split <;> rfl
  | event =>
    rw [classify]
    obtain ⟨-, h⟩ | ⟨-, -, h⟩ | ⟨-, -, hc, h⟩ | ⟨-, -, hc, h⟩ := decodeEvent_cases w
    · rw [h, Instr.wellFormed]
    · rw [h, Instr.wellFormed]
    · simpa [h, Instr.wellFormed] using hc
    · simpa [h, Instr.wellFormed] using hc

/-- Settles O3: the fields of each class are all the bits its conditions leave open. -/
theorem encodeOfDecodeIsTheWord : Obligations.EncodeOfDecodeIsTheWord := fun slot b w =>
  ⟨classify_wellFormed slot b w, encode_classify slot b w⟩

/-! ### The masks of the table (30_encoding.md R100) -/

/-- The word of every well-formed instruction satisfies the condition of its own row. -/
theorem encode_and_mask (i : Instr) : Laws.RowMatch.Statement i :=
  match i with
  | .len L => Laws.RowMatch.len L
  | .trailer T => Laws.RowMatch.trailer T
  | .desc r t => Laws.RowMatch.desc r t
  | .descBad w => Laws.RowMatch.descBad w
  | .hdr d => Laws.RowMatch.hdr d
  | .hdrBad d => Laws.RowMatch.hdrBad d
  | .evtRsv o g c p => Laws.RowMatch.evtRsv o g c p
  | .ovf ig v => Laws.RowMatch.ovf ig v
  | .evtLowch g c t => Laws.RowMatch.evtLowch g c t
  | .evt g c t => Laws.RowMatch.evt g c t

/-- A word satisfies the condition of the row of its class. -/
theorem and_mask_of_class {slot : Slot} {b : Bool} {w : Word} {i : Instr} (h : classify slot b w = i) {r : TableRow}
    (hr : r ∈ tableRows) (ho : r.order = i.tableOrder) : w &&& r.mask = r.pattern := by
  subst h
  simpa only [encode_classify] using encode_and_mask _ (classify_wellFormed slot b w) r hr ho

theorem descValid_of_mask {w : Word} (h : w &&& 0xFB000000#32 = 0xC1000000#32) : descValid w = true := by
  have htop := congrArg topByte h
  rw [topByte, BitVec.extractLsb'_and] at htop
  exact beq_iff_eq.2 htop

theorem reservedHighBit_of_mask {w p : Word} (h : w &&& 0x80000000#32 = p) : reservedHighBit w = p.getLsbD 31 := by
  rw [← h, BitVec.getLsbD_and]
  exact (Bool.and_true _).symm

theorem overflowFlag_of_mask {w p : Word} (h : w &&& 0xC0000000#32 = p) : overflowFlag w = p.getLsbD 30 := by
  rw [← h, BitVec.getLsbD_and]
  exact (Bool.and_true _).symm

theorem channelCode_lt_of_mask {w : Word} (h : w &&& 0xDE000000#32 = 0x00000000#32) : (channelCodeOf w).toNat < 2 := by
  have hlow : ∀ c : BitVec 5, c &&& 0b11110#5 = 0#5 → c.toNat < 2 := by decide
  have hcode := congrArg channelCodeOf h
  rw [channelCodeOf, BitVec.extractLsb'_and] at hcode
  exact hlow _ hcode

/-! ### The first row that matches -/

theorem firstTableRow_length (b : Bool) (w : Word) : firstTableRow .length b w = some (if b then 1 else 2) := by
  cases b <;> simp [firstTableRow, tableRows]

theorem firstTableRow_descriptor (b : Bool) (w : Word) :
    firstTableRow .descriptor b w = if w &&& 0xFB000000#32 = 0xC1000000#32 then some 3 else some 4 := by
  split_ifs <;> simp [firstTableRow, tableRows, *]

theorem firstTableRow_header (b : Bool) (w : Word) :
    firstTableRow .header b w =
      if w &&& 0x80000000#32 = 0x00000000#32 then some 5
      else if w &&& 0x80000000#32 = 0x80000000#32 then some 6
      else none := by
  split_ifs <;> simp [firstTableRow, tableRows, *]

theorem firstTableRow_event (b : Bool) (w : Word) :
    firstTableRow .event b w =
      if w &&& 0x80000000#32 = 0x80000000#32 then some 7
      else if w &&& 0xC0000000#32 = 0x40000000#32 then some 8
      else if w &&& 0xDE000000#32 = 0x00000000#32 then some 9
      else if w &&& 0xC0000000#32 = 0x00000000#32 then some 10
      else none := by
  split_ifs <;> simp [firstTableRow, tableRows, *]

/-- Settles O4: the row of the class matches, and each row before it in the slot asks for a bit the class does not
have. -/
theorem classIsTheFirstTableRow : Obligations.ClassIsTheFirstTableRow := by
  intro slot b w
  cases slot with
  | length => rw [firstTableRow_length]; cases b <;> rfl
  | descriptor =>
    rw [firstTableRow_descriptor]
    by_cases hv : descValid w = true
    · have h : classify .descriptor b w = _ := decodeDescriptor_of_valid hv
      rw [if_pos (and_mask_of_class h (r := ⟨3, .descriptor, 0xFB000000#32, 0xC1000000#32⟩) (by decide) rfl), h,
        Instr.tableOrder]
    · have h : classify .descriptor b w = _ := decodeDescriptor_of_invalid hv
      rw [if_neg (mt descValid_of_mask hv), h, Instr.tableOrder]
  | header =>
    rw [firstTableRow_header]
    cases hr : reservedHighBit w with
    | false =>
      have h : classify .header b w = _ := decodeHeader_of_clear hr
      rw [if_pos (and_mask_of_class h (r := ⟨5, .header, 0x80000000#32, 0x00000000#32⟩) (by decide) rfl), h,
        Instr.tableOrder]
    | true =>
      have h : classify .header b w = _ := decodeHeader_of_reserved hr
      rw [if_neg fun hm => by simp [reservedHighBit_of_mask hm] at hr,
        if_pos (and_mask_of_class h (r := ⟨6, .header, 0x80000000#32, 0x80000000#32⟩) (by decide) rfl), h,
        Instr.tableOrder]
  | event =>
    rw [firstTableRow_event]
    obtain ⟨-, h⟩ | ⟨hr, -, h⟩ | ⟨hr, ho, -, h⟩ | ⟨hr, ho, hc, h⟩ := decodeEvent_cases w <;>
      replace h : classify .event b w = _ := h
    · rw [if_pos (and_mask_of_class h (r := ⟨7, .event, 0x80000000#32, 0x80000000#32⟩) (by decide) rfl), h,
        Instr.tableOrder]
    · rw [if_neg fun hm => by simp [reservedHighBit_of_mask hm] at hr,
        if_pos (and_mask_of_class h (r := ⟨8, .event, 0xC0000000#32, 0x40000000#32⟩) (by decide) rfl), h,
        Instr.tableOrder]
    · rw [if_neg fun hm => by simp [reservedHighBit_of_mask hm] at hr,
        if_neg fun hm => by simp [overflowFlag_of_mask hm] at ho,
        if_pos (and_mask_of_class h (r := ⟨9, .event, 0xDE000000#32, 0x00000000#32⟩) (by decide) rfl), h,
        Instr.tableOrder]
    · rw [if_neg fun hm => by simp [reservedHighBit_of_mask hm] at hr,
        if_neg fun hm => by simp [overflowFlag_of_mask hm] at ho,
        if_neg fun hm => absurd (channelCode_lt_of_mask hm) (Nat.not_lt.2 hc),
        if_pos (and_mask_of_class h (r := ⟨10, .event, 0xC0000000#32, 0x00000000#32⟩) (by decide) rfl), h,
        Instr.tableOrder]

/-! ### The class of an encoded word -/

/-- In its slot the word of a well-formed instruction is classified as that instruction. -/
theorem classify_encode {i : Instr} (hw : i.wellFormed = true) : classify i.slot i.bodyPresent (encode i) = i := by
  cases i with
  | len L => rfl
  | trailer T => rfl
  | desc r t =>
    have hmask := encode_and_mask (.desc r t) hw ⟨3, .descriptor, 0xFB000000#32, 0xC1000000#32⟩ (by decide) rfl
    have h := decodeDescriptor_of_valid (descValid_of_mask hmask)
    rwa [rawModeOf_encode_desc, payloadOf_encode_desc] at h
  | descBad w =>
    have hv : ¬descValid w = true := by simpa [descValid_iff_top, Instr.wellFormed] using hw
    exact decodeDescriptor_of_invalid hv
  | hdr d =>
    have h := decodeHeader_of_clear (reservedHighBit_encode_hdr d)
    rwa [discardedOf_encode_hdr] at h
  | hdrBad d =>
    have h := decodeHeader_of_reserved (reservedHighBit_encode_hdrBad d)
    rwa [discardedOf_encode_hdrBad] at h
  | evtRsv o g c p =>
    obtain ⟨hr, ho, hg, hc, hp⟩ := fields_encode_evtRsv o g c p
    have h := decodeEvent_of_reserved hr
    rwa [ho, hg, hc, hp] at h
  | ovf ig v =>
    obtain ⟨hr, ho, hig, hv⟩ := fields_encode_ovf ig v
    have h := decodeEvent_of_overflow hr ho
    rwa [hig, hv] at h
  | evtLowch g c t =>
    obtain ⟨hr, ho, hg, hc, ht⟩ := fields_encode_evt g c t
    have h := decodeEvent_of_lowChannel hr ho (by simpa [hc, Instr.wellFormed] using hw)
    rwa [hg, hc, ht] at h
  | evt g c t =>
    obtain ⟨hr, ho, hg, hc, ht⟩ := fields_encode_evt g c t
    have h := decodeEvent_of_channel hr ho (by simpa [hc, Instr.wellFormed] using hw)
    rwa [hg, hc, ht] at h

/-- Settles O2: four bytes make the word again, and the slot's classification reads its operands back. -/
theorem decodeOfEncodeIsTheInstruction : Obligations.DecodeOfEncodeIsTheInstruction := fun i rest hw => by
  rw [encodeBytes, decodeBytes_leBytes, classify_encode hw]

/-- Settles O1: each of the twelve words is classified by evaluating its slot's conditions. -/
theorem writtenWordsDecodeToTheirClasses : Obligations.WrittenWordsDecodeToTheirClasses := by
  unfold Obligations.WrittenWordsDecodeToTheirClasses
  decide

/-! ### Bits that have no effect (30_encoding.md R103) -/

theorem exec_header_of_clear {w : Word} (hr : reservedHighBit w = false) (s : State) :
    exec (classify .header false w) s = .next (advance s) := by
  rw [classify, decodeHeader_of_clear hr, exec_hdr]

theorem exec_header_of_reserved {w : Word} (hr : reservedHighBit w = true) (s : State) :
    exec (classify .header false w) s =
      .next (raiseError .invalidEventRecord .header s.wordOffset w s) := by
  rw [classify, decodeHeader_of_reserved hr, exec_hdrBad, encode_hdrBad_discardedOf hr]

theorem exec_event_of_overflow {w : Word} (hr : reservedHighBit w = false) (ho : overflowFlag w = true) (s : State) :
    exec (classify .event false w) s = .next (advance { s with ovf := payloadOf w }) := by
  rw [classify, decodeEvent_of_overflow hr ho, exec_ovf]

theorem reservedHighBit_eq_false_iff (w : Word) : reservedHighBit w = false ↔ w.toNat < 2 ^ 31 := by
  rw [← Bool.toNat_eq_zero, toNat_reservedHighBit]
  omega

theorem reservedHighBit_eq_true_iff (w : Word) : reservedHighBit w = true ↔ 2 ^ 31 ≤ w.toNat := by
  have := w.isLt
  rw [← Bool.toNat_eq_one, toNat_reservedHighBit]
  omega

/-- An overflow word is told by its two top bits. -/
theorem overflow_iff_top (w : Word) :
    w.toNat / 2 ^ 30 = 1 ↔ reservedHighBit w = false ∧ overflowFlag w = true := by
  have := w.isLt
  rw [← Bool.toNat_eq_zero, ← Bool.toNat_eq_one, toNat_reservedHighBit, toNat_overflowFlag]
  omega

/-- Settles O5: neither HDR nor OVF uses its ignored operand, and a rejected header goes into the record alone. -/
theorem dontCareBitsChangeNothing : Obligations.DontCareBitsChangeNothing := by
  intro w w' s
  refine ⟨fun hw hw' => ?_, fun hw hw' => ?_, fun hw hw' hv => ?_⟩
  · rw [exec_header_of_clear ((reservedHighBit_eq_false_iff w).2 hw),
      exec_header_of_clear ((reservedHighBit_eq_false_iff w').2 hw')]
  · exact ⟨raiseError .invalidEventRecord .header s.wordOffset 0 s, rfl,
      exec_header_of_reserved ((reservedHighBit_eq_true_iff w).2 hw) s,
      exec_header_of_reserved ((reservedHighBit_eq_true_iff w').2 hw') s⟩
  · obtain ⟨hr, ho⟩ := (overflow_iff_top w).1 hw
    obtain ⟨hr', ho'⟩ := (overflow_iff_top w').1 hw'
    rw [exec_event_of_overflow hr ho, exec_event_of_overflow hr' ho', payloadOf_eq_ofNat, payloadOf_eq_ofNat, hv]

/-! ### Byte order (20_memory.md R61) -/

theorem toNat_leWord (b0 b1 b2 b3 : Byte) :
    (leWord b0 b1 b2 b3).toNat = b0.toNat + b1.toNat * 2 ^ 8 + b2.toNat * 2 ^ 16 + b3.toNat * 2 ^ 24 := by
  have := b0.isLt
  have := b1.isLt
  have := b2.isLt
  have := b3.isLt
  rw [leWord, BitVec.toNat_append, ← Nat.shiftLeft_add_eq_or_of_lt b0.isLt, BitVec.toNat_append,
    ← Nat.shiftLeft_add_eq_or_of_lt b1.isLt, BitVec.toNat_append, ← Nat.shiftLeft_add_eq_or_of_lt b2.isLt]
  simp only [Nat.shiftLeft_eq]
  omega

/-- Settles O6: the word is made of the first four bytes from the address on. -/
theorem wordsAreLittleEndian : Obligations.WordsAreLittleEndian := by
  intro m a
  refine ⟨fun b0 b1 b2 b3 h0 h1 h2 h3 => ⟨leWord b0 b1 b2 b3, ?_, toNat_leWord b0 b1 b2 b3⟩, Memory.wordAt_none⟩
  have hlt : a + 3 < m.length := (List.getElem?_eq_some_iff.1 h3).1
  have hdrop : m.drop a = b0 :: b1 :: b2 :: b3 :: m.drop (a + 4) := by
    rw [List.drop_eq_getElem?_toList_append, h0, List.drop_eq_getElem?_toList_append (i := a + 1), h1,
      List.drop_eq_getElem?_toList_append (i := a + 2), h2, List.drop_eq_getElem?_toList_append (i := a + 3), h3]
    rfl
  rw [Memory.wordAt_eq hlt, hdrop, wordsOf, List.head?_cons]

end Sys2Proof.Machine
end

section
/-! PROOF of the words and the steps, one by one: the operations, whose move it is, and what each word class writes. -/

namespace Sys2Proof.Machine

/-! ### Reads, codes and results -/

/-- Settles O7: the whole read is the bytes from the cursor on, and a short one is nothing. -/
theorem readsAreAllOrNothing : Obligations.ReadsAreAllOrNothing := fun k s m hi =>
  ⟨fun hs => ⟨m.read s.pos k, readExact_bytes hi hs, Memory.length_read hs, fun _ => Memory.getElem?_read⟩,
    readExact_short hi⟩

/-- Settles O33: the codes are distinct, so reading one back finds its name. -/
theorem errorCodesAndSettledOutcomes : Obligations.ErrorCodesAndSettledOutcomes := by
  refine ⟨rfl, rfl, rfl, rfl, rfl, rfl, rfl, rfl, ofCode_code, fun e slot => ?_⟩
  cases e <;> simp [ErrorName.settled]

/-- Settles O34: the result is chosen by the phase. -/
theorem resultIsDeliveredOnlyAtTheEnd : Obligations.ResultIsDeliveredOnlyAtTheEnd := fun s =>
  ⟨fun hp => by simp [State.result, hp], fun hp => by simp [State.result, hp],
    fun hd he => by simp [State.result, hd, he]⟩

/-- Settles O13: each field of the reset state is the value of R43. -/
theorem resetValuesAreTheSpecs : Obligations.ResetValuesAreTheSpecs :=
  ⟨reset_phase, reset_input, reset_pos, reset_lastLen, reset_lenOff, reset_blkLen, reset_widx, reset_blkBase,
    reset_buf, reset_ovf, reset_raw, reset_tpb, reset_pend, reset_blocks, rfl, reset_residual, reset_err, reset_host⟩

/-! ### Whose move it is -/

/-- Settles O10: in IDLE the host's START is the step. -/
theorem startBindsTheInput : Obligations.StartBindsTheInput := fun _ _ _ => step_start_idle

/-- Settles O11: outside IDLE the check of START fails. -/
theorem startOutsideIdleHasNoMove : Obligations.StartOutsideIdleHasNoMove := fun _ _ _ hh hp =>
  (step_start hh).trans (if_neg hp)

/-- Settles O12: RESET does not look at the state but for the host's later moves. -/
theorem resetRestoresTheResetState : Obligations.ResetRestoresTheResetState := fun _ _ => step_reset

theorem Phase.ended_of_not_quiescent {p : Phase} (hq : p.quiescent = false) : p.ended = false := by
  cases p <;> simp_all [Phase.quiescent, Phase.ended]

/-- Settles O14: a wait hands the step to the decoder unless the phase is one the wait ends in. -/
theorem waitingHostLeavesTheDecoderAlone : Obligations.WaitingHostLeavesTheDecoderAlone := by
  refine fun s rest => ⟨step_wait_quiescent, step_wait_decoder, step_awaitEnd_ended,
    fun hh hq => step_awaitEnd_decoder hh (Phase.ended_of_not_quiescent hq), fun hh hp => ?_⟩
  rw [step_awaitEnd_decoder hh (by simp [hp, Phase.ended]), decoderStep_quiescent (by simp [hp, Phase.quiescent])]

/-- Settles O15: the three phases are the quiescent ones. -/
theorem quiescentPhasesTakeNoStep : Obligations.QuiescentPhasesTakeNoStep := by
  intro s hh hp
  rw [step_nil hh]
  exact decoderStep_quiescent (by rcases hp with hp | hp | hp <;> simp [hp, Phase.quiescent])

/-- Settles O8: the fetch of each phase is the word named, and in BODY and CHECK the last length word. -/
theorem stepRunsTheFetchedWord : Obligations.StepRunsTheFetchedWord := by
  intro s hh
  rw [step_nil hh]
  refine ⟨fun m w hp hi hw => ?_, fun m w hp hi hl => ?_, fun w => decoderStep_desc, fun w => decoderStep_hdr,
    fun w => decoderStep_evt, fun T hp hl => ?_⟩
  · rw [decoderStep_len hp hi, hw]
    exact ((exec_lengthInstr_len hp).trans (lenStep_read hi (Memory.wordAt_some_bound hw))).symm
  · rw [decoderStep_body hp hi hl]
    exact (exec_lengthInstr_body hp).symm
  · rw [decoderStep_check hp, hl, exec_trailer_check hp]

/-- A table word is placed in the slot in which the decoder reads it (log 7). -/
theorem step_placeWord (w : Word) (s : State) :
    step (placeWord w s) = exec (classify (tableSlot w) false w) (placeWord w s) := by
  rw [placeWord, tableSlot]
  cases hv : descValid w with
  | true => exact (step_nil rfl).trans (decoderStep_desc rfl rfl)
  | false => exact (step_nil rfl).trans (decoderStep_evt rfl rfl)

/-- Settles O9: the decoder of a lone word and its placement choose one slot. -/
theorem tableWordRunsNext : Obligations.TableWordRunsNext := fun s w =>
  ⟨_, decodeTableWord_of_le (Nat.le_refl 32), step_placeWord (tableWord 32 w) s⟩

/-! ### What each word class writes -/

/-- Settles O16: the meaning of DESC. -/
theorem descriptorWordLatchesItsFields : Obligations.DescriptorWordLatchesItsFields := exec_desc

/-- Settles O17: the meaning of HDR is the advance. -/
theorem headerWordOnlyAdvances : Obligations.HeaderWordOnlyAdvances := exec_hdr

/-- Settles O18: the meaning of OVF is the advance with another counter. -/
theorem overflowWordReplacesTheCounter : Obligations.OverflowWordReplacesTheCounter := exec_ovf

/-- Settles O19: the event is the one of the word and the counter. -/
theorem eventWordAppendsOneEvent : Obligations.EventWordAppendsOneEvent := fun gap code time s hw =>
  have hc : 2 ≤ code.toNat := by simpa [Instr.wellFormed] using hw
  ⟨eventOf s.ovf gap code time, toNat_channelOf hc, toNat_timestampOf s.ovf time, rfl, exec_evt gap code time s⟩

/-- Settles O20: each of the four classes is one error entry. -/
theorem errorWordsEnterTheError : Obligations.ErrorWordsEnterTheError := fun s =>
  ⟨fun w => exec_descBad w s, fun d => exec_hdrBad d s, fun o g c p => exec_evtRsv o g c p s,
    fun g c t => exec_evtLowch g c t s⟩

/-- Settles O21: LEN is the framing step of its phase. -/
theorem lengthWordOpensItsBlock : Obligations.LengthWordOpensItsBlock := fun L s m hi =>
  ⟨fun hp hs => (exec_len_len (by simp [hp])).trans (lenStep_read hi hs), fun hp hs hL =>
    ⟨wordsOf (m.read s.pos (4 * L.toNat)), wordsOf_read_length hs, fun _ => wordsOf_read_getElem? hs,
      (exec_len_body hp).trans (bodyStep_open hi hs hL)⟩⟩

/-- Settles O24: the LEN step is a read of four bytes, whole or short. -/
theorem lengthStepReadsOneWord : Obligations.LengthStepReadsOneWord := by
  intro s m hh hp hi
  rw [step_nil hh]
  refine ⟨fun hs => ?_, fun hs => (DecoderMove.lenShort m hp hi hs).decoderStep_eq⟩
  obtain ⟨w, hw⟩ := Option.isSome_iff_exists.1 ((m.wordAt_isSome_iff s.pos).2 hs)
  exact ⟨w, hw, (DecoderMove.lenWord m w hp hi hw).decoderStep_eq⟩

/-! ### What no word writes -/

/-- What every word leaves: the host's moves, the input, the blocks, and the error record outside ERROR. -/
structure WordFrame (s t : State) : Prop where
  host : t.host = s.host
  input : t.input = s.input
  blocks : t.blocks = s.blocks
  err : t.phase ≠ .error → t.err = s.err

theorem lenStep_frame {w : Word} {s t : State} (h : lenStep w s = .next t) :
    WordFrame s t ∧ t.residual = s.residual := by
  cases hi : s.input with
  | none => rw [lenStep_unbound hi] at h; cases h
  | some m =>
    by_cases hs : s.pos + 4 ≤ m.length
    · rw [lenStep_read hi hs] at h; cases h; exact ⟨⟨rfl, rfl, rfl, fun _ => rfl⟩, rfl⟩
    · rw [lenStep_short hi (by omega)] at h; cases h; exact ⟨⟨rfl, rfl, rfl, fun _ => rfl⟩, rfl⟩

theorem bodyStep_frame {L : Word} {s t : State} (h : bodyStep L s = .next t) :
    WordFrame s t ∧ t.residual = s.residual := by
  cases hi : s.input with
  | none => rw [bodyStep_unbound hi] at h; cases h
  | some m =>
    by_cases hs : s.pos + 4 * L.toNat ≤ m.length
    · by_cases hL : L.toNat < 2
      · rw [bodyStep_tooShort hi hs hL] at h; cases h
        exact ⟨⟨rfl, rfl, rfl, by simp⟩, rfl⟩
      · rw [bodyStep_open hi hs (by omega)] at h; cases h; exact ⟨⟨rfl, rfl, rfl, fun _ => rfl⟩, rfl⟩
    · rw [bodyStep_short hi (by omega)] at h; cases h; exact ⟨⟨rfl, rfl, rfl, fun _ => rfl⟩, rfl⟩

theorem checkStep_frame {T : Word} {s t : State} (h : checkStep (some T) s = .next t) : WordFrame s t := by
  cases hi : s.input with
  | none => rw [checkStep_unbound hi] at h; cases h
  | some m =>
    by_cases hT : T.toNat = s.bcount
    · rw [checkStep_match hi hT] at h; cases h; exact ⟨rfl, rfl, rfl, fun _ => rfl⟩
    · rw [checkStep_mismatch hi hT] at h; cases h
      exact ⟨rfl, rfl, rfl, by simp⟩

theorem exec_len_frame {L : Word} {s t : State} (h : exec (.len L) s = .next t) :
    WordFrame s t ∧ t.residual = s.residual := by
  obtain he | he := exec_len_cases L s
  · exact bodyStep_frame (he ▸ h)
  · exact lenStep_frame (he ▸ h)

theorem exec_trailer_frame {T : Word} {s t : State} (h : exec (.trailer T) s = .next t) : WordFrame s t := by
  obtain he | he | he := exec_trailer_cases T s
  · exact (lenStep_frame (he ▸ h)).1
  · exact (bodyStep_frame (he ▸ h)).1
  · exact checkStep_frame (he ▸ h)

/-- The words of a block and LEN: all but TRAILER leave the residual too. -/
theorem exec_frame {i : Instr} {s t : State} (hi : ∀ T, i ≠ .trailer T) (h : exec i s = .next t) :
    WordFrame s t ∧ t.residual = s.residual := by
  cases i with
  | len L => exact exec_len_frame h
  | trailer T => exact absurd rfl (hi T)
  | desc r tpb => rw [exec_desc] at h; cases h; exact ⟨⟨rfl, rfl, rfl, fun _ => rfl⟩, rfl⟩
  | hdr d => rw [exec_hdr] at h; cases h; exact ⟨⟨rfl, rfl, rfl, fun _ => rfl⟩, rfl⟩
  | ovf ig v => rw [exec_ovf] at h; cases h; exact ⟨⟨rfl, rfl, rfl, fun _ => rfl⟩, rfl⟩
  | evt g c time => rw [exec_evt] at h; cases h; exact ⟨⟨rfl, rfl, rfl, fun _ => rfl⟩, rfl⟩
  | descBad w => rw [exec_descBad] at h; cases h; exact ⟨⟨rfl, rfl, rfl, by simp⟩, rfl⟩
  | hdrBad d => rw [exec_hdrBad] at h; cases h; exact ⟨⟨rfl, rfl, rfl, by simp⟩, rfl⟩
  | evtRsv o g c p => rw [exec_evtRsv] at h; cases h; exact ⟨⟨rfl, rfl, rfl, by simp⟩, rfl⟩
  | evtLowch g c time => rw [exec_evtLowch] at h; cases h; exact ⟨⟨rfl, rfl, rfl, by simp⟩, rfl⟩

/-- Settles O23: TRAILER has the frame of every word, and the others keep the residual besides. -/
theorem noWordTouchesInputOrOutput : Obligations.NoWordTouchesInputOrOutput := by
  intro i s t h
  have hframe : WordFrame s t := by
    by_cases hi : ∃ T, i = .trailer T
    · obtain ⟨T, rfl⟩ := hi
      exact exec_trailer_frame h
    · exact (exec_frame (fun T hT => hi ⟨T, hT⟩) h).1
  exact ⟨hframe.host, hframe.input, hframe.blocks, hframe.err, fun hi => (exec_frame hi h).2⟩

end Sys2Proof.Machine
end

section
/-! PROOF of the frames of the decoder's moves (10_state.md, 60_exceptions.md): which move writes a field, which moves
enter CHECK, DONE and ERROR, and what the quiescent phases keep. -/

namespace Sys2Proof.Machine

/-! ### Each field has its writer -/

theorem DecoderMove.keeps_raw_tpb {s t : State} (h : DecoderMove s t) (hp : s.phase ≠ .desc) :
    t.raw = s.raw ∧ t.tpb = s.tpb := by
  cases h with
  | desc w hp' => exact absurd hp' hp
  | _ => exact ⟨rfl, rfl⟩

theorem DecoderMove.keeps_openBlock {s t : State} (h : DecoderMove s t) (hp : s.phase ≠ .body) :
    t.buf = s.buf ∧ t.blkLen = s.blkLen ∧ t.blkBase = s.blkBase := by
  cases h with
  | bodyOpen m L hp' => exact absurd hp' hp
  | _ => exact ⟨rfl, rfl, rfl⟩

theorem DecoderMove.keeps_lengthWord {s t : State} (h : DecoderMove s t) (hp : s.phase ≠ .len) :
    t.lastLen = s.lastLen ∧ t.lenOff = s.lenOff := by
  cases h with
  | lenWord m w hp' => exact absurd hp' hp
  | _ => exact ⟨rfl, rfl⟩

theorem DecoderMove.keeps_residual {s t : State} (h : DecoderMove s t) (hp : s.phase ≠ .check) :
    t.residual = s.residual := by
  cases h with
  | checkNone m hp' => exact absurd hp' hp
  | checkDone m T hp' => exact absurd hp' hp
  | checkMismatch m T hp' => exact absurd hp' hp
  | _ => rfl

theorem DecoderMove.keeps_blocks {s t : State} (h : DecoderMove s t) (hp : s.phase ≠ .commit) :
    t.blocks = s.blocks := by
  cases h with
  | commit hp' => exact absurd hp' hp
  | _ => rfl

/-- Settles O41: one field or group of fields per writer. -/
theorem eachLatchHasItsOneWriter : Obligations.EachLatchHasItsOneWriter := fun _ _ hh h =>
  have hm := step_nil_move hh h
  ⟨hm.keeps_raw_tpb, hm.keeps_openBlock, hm.keeps_lengthWord, hm.keeps_residual⟩

/-- Settles O38: COMMIT appends its block, and every other move keeps the list. -/
theorem committedBlocksNeverChange : Obligations.CommittedBlocksNeverChange := by
  intro s t hh h
  refine ⟨(step_nil_move hh h).keeps_blocks, fun hp => ?_⟩
  rw [(DecoderMove.commit hp).step_eq hh] at h
  cases h
  rfl

/-- Settles O39: the decoder keeps the input, a wait keeps all, and START and RESET are the two exceptions. -/
theorem inputIsNeverWritten : Obligations.InputIsNeverWritten := by
  intro s t h
  obtain ⟨-, hm⟩ | ⟨m, rest, hh, -, rfl⟩ | ⟨rest, hh, rfl⟩ | ⟨rest, -, -, rfl⟩ | ⟨rest, -, -, hm⟩ |
    ⟨rest, -, -, rfl⟩ | ⟨rest, -, -, hm⟩ := step_cases h
  · exact .inl hm.keeps_input
  · exact .inr (.inl ⟨m, rest, hh, rfl⟩)
  · exact .inr (.inr ⟨rest, hh, rfl⟩)
  · exact .inl rfl
  · exact .inl hm.keeps_input
  · exact .inl rfl
  · exact .inl hm.keeps_input

/-- Settles O40: a length word and a body, accepted or too short to be one, are the only reads. -/
theorem cursorMovesOnlyByWholeReads : Obligations.CursorMovesOnlyByWholeReads := by
  intro s t hh h
  cases step_nil_move hh h with
  | lenWord m w hp => exact .inr (.inl ⟨hp, rfl⟩)
  | bodyTooShort m L hp hi hl => exact .inr (.inr ⟨hp, L, hl, rfl⟩)
  | bodyOpen m L hp hi hl => exact .inr (.inr ⟨hp, L, hl, rfl⟩)
  | _ => exact .inl rfl

/-- The counter is written by the overflow word and by the fetch of a body. -/
theorem DecoderMove.ovf_cases {s t : State} (h : DecoderMove s t)
    (hw : ∀ w, s.phase = .evt → s.buf[s.widx]? = some w → w.toNat / 2 ^ 30 ≠ 1) :
    t.ovf = s.ovf ∨ (s.phase = .body ∧ t.phase = .desc ∧ t.ovf = 0#24) := by
  cases h with
  | ovf w hp hbuf hr ho => exact absurd ((overflow_iff_top w).2 ⟨hr, ho⟩) (hw w hp hbuf)
  | bodyOpen m L hp => exact .inr ⟨hp, rfl, rfl⟩
  | _ => exact .inl rfl

/-- Settles O37: the payload is the whole of the next counter. -/
theorem counterIsReplacedNeverAdded : Obligations.CounterIsReplacedNeverAdded := by
  refine ⟨fun s t w hh hp hw htop h => ?_, fun s t hh h hw => (step_nil_move hh h).ovf_cases hw,
    fun s t u ig ig' a b _ h => ?_⟩
  · obtain ⟨hr, ho⟩ := (overflow_iff_top w).1 htop
    rw [(DecoderMove.ovf w hp hw hr ho).step_eq hh] at h
    cases h
    exact toNat_payloadOf w
  · rw [exec_ovf] at h
    cases h
    rfl

/-! ### The phases (10_state.md R21) -/

theorem mem_phaseMoves_advance {p : Phase} (hp : p = .hdr ∨ p = .evt) (s : State) :
    (p, (advance s).phase) ∈ phaseMoves := by
  obtain rfl | rfl := hp
  · exact advance_phase_elim (P := fun q => (.hdr, q) ∈ phaseMoves) (by decide) (by decide) s
  · exact advance_phase_elim (P := fun q => (.evt, q) ∈ phaseMoves) (by decide) (by decide) s

theorem DecoderMove.mem_phaseMoves {s t : State} (h : DecoderMove s t) : (s.phase, t.phase) ∈ phaseMoves := by
  cases h with
  | hdr w hp => exact mem_phaseMoves_advance (.inl hp) _
  | ovf w hp => exact mem_phaseMoves_advance (.inr hp) _
  | evt w hp => exact mem_phaseMoves_advance (.inr hp) _
  | _ => simp [*, phaseMoves, recordLength]

/-- Settles O46: no listed move leads from a terminated phase to one that reads blocks. -/
theorem phasesFollowTheStepSequence : Obligations.PhasesFollowTheStepSequence := by
  intro s t hh h
  have hback : ∀ p ∈ phaseMoves, p.2.readingBlocks = true → p.1.readingBlocks = true := by decide
  have hmem := (step_nil_move hh h).mem_phaseMoves
  exact ⟨hmem, hback _ hmem⟩

/-- Settles O47: of the moves only the two short reads lead to CHECK. -/
theorem checkIsReachedOnlyByAShortRead : Obligations.CheckIsReachedOnlyByAShortRead := by
  intro s t hh h ht
  cases step_nil_move hh h with
  | lenShort m hp hi hs => exact ⟨rfl, m, hi, .inl ⟨hp, hs⟩⟩
  | bodyShort m L hp hi hl hs => exact ⟨rfl, m, hi, .inr ⟨hp, L, hl, hs⟩⟩
  | hdr | ovf | evt => exact absurd ht (advance_phase_elim (P := (· ≠ .check)) (by decide) (by decide) _)
  | _ => cases ht

/-- Settles O48: of the moves only the check of an equal trailer leads to DONE. -/
theorem successfulDecodeCountsItsBlocks : Obligations.SuccessfulDecodeCountsItsBlocks := by
  intro s t hh h ht
  cases step_nil_move hh h with
  | checkDone m T hp hi hl hT => exact ⟨T, hl, hT.symm⟩
  | hdr | ovf | evt => exact absurd ht (advance_phase_elim (P := (· ≠ .done)) (by decide) (by decide) _)
  | _ => cases ht

/-! ### Error entry (60_exceptions.md R225, R227, R228) -/

/-- The errors that some step raises (60_exceptions.md R225). -/
def raisedErrors : List ErrorName :=
  [.invalidDescriptor, .invalidEventRecord, .trailerMismatch, .lowChannel, .shortBlockLength, .noLengthWord]

/-- A move leaves the error record or enters the error. -/
theorem DecoderMove.error_cases {s t : State} (h : DecoderMove s t) :
    (t.phase ≠ .error ∧ t.err = s.err) ∨
      ∃ e sl off w u, t = raiseError e sl off w u ∧ u.blocks = s.blocks ∧ e ∈ raisedErrors := by
  cases h with
  | bodyTooShort | descBad | hdrBad | evtRsv | evtLowch | checkNone | checkMismatch =>
    exact .inr ⟨_, _, _, _, _, rfl, rfl, by decide⟩
  | hdr | ovf | evt => exact .inl ⟨advance_phase_elim (P := (· ≠ .error)) (by decide) (by decide) _, rfl⟩
  | _ => exact .inl ⟨by simp [recordLength], rfl⟩

/-- Settles O42: error entry writes the record, and no other move does. -/
theorem errorRecordIsWrittenOnlyByErrorEntry : Obligations.ErrorRecordIsWrittenOnlyByErrorEntry := by
  intro s t hh h
  have hcode : ∀ e ∈ raisedErrors, e.code ∈ [0x01#8, 0x02#8, 0x03#8, 0x11#8, 0x12#8, 0x13#8] := by decide
  obtain ⟨hp, he⟩ | ⟨e, sl, off, w, u, rfl, hu, he⟩ := (step_nil_move hh h).error_cases
  · exact ⟨fun _ => he, fun hp' => absurd hp' hp⟩
  · exact ⟨fun hp => absurd rfl hp, fun _ => ⟨congrArg List.length hu, rfl, hu, hcode e he⟩⟩

/-- The block word at the cursor is the word of the input at its offset. -/
theorem State.Inv.wordAt_wordOffset {s : State} {m : Memory} {w : Word} (hs : s.Inv)
    (hp : s.phase.inBlock = true) (hi : s.input = some m) (hw : s.buf[s.widx]? = some w) :
    m.wordAt s.wordOffset = some w := by
  rw [← hw]
  exact hs.blockWords hp m hi s.widx (List.getElem?_eq_some_iff.1 hw).1

/-- Settles O43: each recorded word is the last length word or the block word at the cursor, re-encoded without loss. -/
theorem errorsArePrecise : Obligations.ErrorsArePrecise := by
  intro s t m hs hh hi h ht
  have hword {w : Word} (hp : s.phase.inBlock = true) (hw : s.buf[s.widx]? = some w) :=
    hs.wordAt_wordOffset hp hi hw
  cases step_nil_move hh h with
  | bodyTooShort m' L hp hi' hl => exact .inr (hs.lengthWord m L hi hl)
  | descBad w hp hw hv => exact .inr (hword (by simp [hp, Phase.inBlock]) hw)
  | hdrBad w hp hw hr =>
    rw [encode_hdrBad_discardedOf hr]
    exact .inr (hword (by simp [hp, Phase.inBlock]) hw)
  | evtRsv w hp hw hr =>
    rw [encode_evtRsv_fields hr]
    exact .inr (hword (by simp [hp, Phase.inBlock]) hw)
  | evtLowch w hp hw hr ho hc =>
    rw [encode_evtLowch_fields hr ho]
    exact .inr (hword (by simp [hp, Phase.inBlock]) hw)
  | checkNone => exact .inl rfl
  | checkMismatch m' T hp hi' hl => exact .inr (hs.lengthWord m T hi hl)
  | hdr | ovf | evt => exact absurd ht (advance_phase_elim (P := (· ≠ .error)) (by decide) (by decide) _)
  | _ => cases ht

/-! ### ERROR and DONE (60_exceptions.md R231, R233) -/

/-- In DONE and ERROR the host alone steps: by RESET, or by a wait that changes nothing but its own list of moves. -/
theorem step_ended_cases {s t : State} (he : s.phase.ended = true) (h : step s = .next t) :
    (∃ rest, s.host = .reset :: rest ∧ t = { State.reset with host := rest }) ∨
      (t = { s with host := s.host.tail } ∧ ∀ m rest, s.host ≠ .start m :: rest) := by
  have hmove : ∀ {u v : State}, DecoderMove u v → u.phase = s.phase → False := fun hm hp => by
    rw [← hp, Phase.ended_of_not_quiescent hm.not_quiescent] at he
    cases he
  obtain ⟨-, hm⟩ | ⟨m, rest, -, hp, -⟩ | ⟨rest, hh, rfl⟩ | ⟨rest, hh, -, rfl⟩ | ⟨rest, -, -, hm⟩ |
    ⟨rest, hh, -, rfl⟩ | ⟨rest, -, -, hm⟩ := step_cases h
  · exact (hmove hm rfl).elim
  · simp [hp, Phase.ended] at he
  · exact .inl ⟨rest, hh, rfl⟩
  · exact .inr ⟨by rw [hh, List.tail_cons], by simp [hh]⟩
  · exact (hmove hm rfl).elim
  · exact .inr ⟨by rw [hh, List.tail_cons], by simp [hh]⟩
  · exact (hmove hm rfl).elim

/-- Settles O44: ERROR is one of the two ended phases. -/
theorem errorIsLeftOnlyByReset : Obligations.ErrorIsLeftOnlyByReset := fun _ _ hp =>
  step_ended_cases (by simp [hp, Phase.ended])

/-- Settles O45: DONE is the other, and a state that keeps all but the host's list keeps its result. -/
theorem resultIsKeptUntilReset : Obligations.ResultIsKeptUntilReset := by
  intro s t hp h
  obtain hr | ⟨rfl, hs⟩ := step_ended_cases (by simp [hp, Phase.ended]) h
  · exact .inl hr
  · exact .inr ⟨rfl, resultIsDeliveredOnlyAtTheEnd { s with host := s.host.tail } |>.1 hp, hs⟩

/-! ### A block's start and its end (43_event_words.md R192, R193) -/

/-- Settles O51: the fetch of a body overwrites every field in question. -/
theorem blockStartsFresh : Obligations.BlockStartsFresh := by
  intro s m L ovf pend buf n b i hh hp hi hl hL hs
  have hstep := (DecoderMove.bodyOpen m L hp hi hl hs hL).step_eq hh
  have hother := (DecoderMove.bodyOpen (s := { s with
    ovf := ovf, pend := pend, buf := buf, blkLen := BitVec.ofNat 32 n, blkBase := b, widx := i })
    m L hp hi hl hs hL).step_eq hh
  exact ⟨hother.trans hstep.symm, _, hstep, rfl, rfl⟩

/-- In COMMIT the cursor has passed the whole block. -/
theorem State.Inv.overflowWords_commit {s : State} (hs : s.Inv) (hp : s.phase = .commit) :
    s.overflowWords = (s.buf.drop 2).countP fun w => w.toNat / 2 ^ 30 == 1 := by
  have hlen := (hs.openedBlock (by simp [hp, Phase.inBlock])).length_buf
  have hcount : isOverflowWord = fun w => w.toNat / 2 ^ 30 == 1 := by
    funext w
    rw [isOverflowWord_eq, Bool.eq_iff_iff, beq_iff_eq, overflow_iff_top, Bool.and_eq_true, Bool.not_eq_true']
  rw [State.overflowWords, hs.atCommit hp, ← hlen, List.take_length, hcount]

/-- Settles O49: the invariant's count of pending events, at the end of the block. -/
theorem eventCountOfACommittedBlock : Obligations.EventCountOfACommittedBlock := by
  intro s hs hh hp
  refine ⟨commitStep s, _, (DecoderMove.commit hp).step_eq hh, rfl, ?_⟩
  rw [← hs.overflowWords_commit hp, hs.pendCount (.inr hp), hs.atCommit hp]

end Sys2Proof.Machine
end

section
/-! PROOF of the noninterference statements: `rawMode` selects nothing (00_scope.md R2, 41_descriptor.md R161), and what
an earlier block left in the block decoder's fields reaches no status view (10_state.md R42, 43_event_words.md R193). -/

namespace Sys2Proof.Machine

/-! ### Relations that every step carries over -/

/-- A relation between states with one phase and one list of host moves, which START, RESET and every move of the
decoder carry over. -/
structure StepRelation (R : State → State → Prop) : Prop where
  refl : ∀ s, R s s
  host : ∀ {s s'}, R s s' → s'.host = s.host
  phase : ∀ {s s'}, R s s' → s'.phase = s.phase
  withHost : ∀ {s s'}, R s s' → ∀ moves, R { s with host := moves } { s' with host := moves }
  start : ∀ {s s'}, R s s' → s.phase = .idle → ∀ m,
    R { s with input := some m, pos := 0, lastLen := none, lenOff := 0, blocks := [], residual := 0, phase := .len }
      { s' with input := some m, pos := 0, lastLen := none, lenOff := 0, blocks := [], residual := 0, phase := .len }
  move : ∀ {s s' t}, R s s' → DecoderMove s t → ∃ t', DecoderMove s' t' ∧ R t t'

/-- What the decoder's moves carry over the machine's steps do. -/
theorem StepRelation.step {R : State → State → Prop} (hR : StepRelation R) {s s' t : State} (h : R s s')
    (hs : step s = .next t) : ∃ t', step s' = .next t' ∧ R t t' := by
  have hhost := hR.host h
  have hphase := hR.phase h
  obtain ⟨hh, hm⟩ | ⟨m, rest, hh, hp, rfl⟩ | ⟨rest, hh, rfl⟩ | ⟨rest, hh, hq, rfl⟩ | ⟨rest, hh, hq, hm⟩ |
    ⟨rest, hh, he, rfl⟩ | ⟨rest, hh, he, hm⟩ := step_cases hs
  · obtain ⟨t', hm', ht⟩ := hR.move h hm
    exact ⟨t', hm'.step_eq (hhost.trans hh), ht⟩
  · exact ⟨_, step_start_idle (hhost.trans hh) (hphase.trans hp), hR.withHost (hR.start h hp m) rest⟩
  · exact ⟨_, step_reset (hhost.trans hh), hR.refl _⟩
  · exact ⟨_, step_wait_quiescent (hhost.trans hh) (hphase ▸ hq), hR.withHost h rest⟩
  · obtain ⟨t', hm', ht⟩ := hR.move (hR.withHost h rest) hm
    exact ⟨t', (step_wait_decoder (hhost.trans hh) (hphase ▸ hq)).trans hm'.decoderStep_eq, ht⟩
  · exact ⟨_, step_awaitEnd_ended (hhost.trans hh) (hphase ▸ he), hR.withHost h rest⟩
  · obtain ⟨t', hm', ht⟩ := hR.move h hm
    exact ⟨t', (step_awaitEnd_decoder (hhost.trans hh) (hphase ▸ he)).trans hm'.decoderStep_eq, ht⟩

theorem StepRelation.run {R : State → State → Prop} (hR : StepRelation R) {s s' t : State} {k : Nat} (h : R s s')
    (hr : s.runsTo k t) : ∃ t', s'.runsTo k t' ∧ R t t' := by
  induction k generalizing s s' with
  | zero => cases hr; exact ⟨s', runsTo_zero s', h⟩
  | succ k ih =>
    obtain ⟨u, hstep, hr⟩ := runsTo_succ_iff.1 hr
    obtain ⟨u', hstep', hu⟩ := hR.step h hstep
    obtain ⟨t', hr', ht⟩ := ih hu hr
    exact ⟨t', runsTo_succ hstep' hr', ht⟩

/-! ### Raw modes -/

/-- `s` with other raw modes: in the latch, and in a list of blocks that stands for the committed ones. -/
def State.withRaw (s : State) (r : Bool) (bs : List Block) : State := { s with raw := r, blocks := bs }

/-- A block with its raw mode hidden. -/
def Block.eraseRaw (b : Block) : Block := { b with rawMode := false }

theorem eraseRaw_eq_iff {s s' : State} :
    s.eraseRaw = s'.eraseRaw ↔
      ∃ r bs, s' = s.withRaw r bs ∧ bs.map Block.eraseRaw = s.blocks.map Block.eraseRaw := by
  constructor
  · intro h
    refine ⟨s'.raw, s'.blocks, ?_, (congrArg State.blocks h).symm⟩
    cases s
    cases s'
    simp only [State.eraseRaw, State.mk.injEq, State.withRaw] at h ⊢
    tauto
  · rintro ⟨r, bs, rfl, hb⟩
    have hb : (s.withRaw r bs).eraseRaw.blocks = s.eraseRaw.blocks := hb
    exact (congrArg (fun blocks => { s.eraseRaw with blocks := blocks }) hb).symm

/-- Two states that differ in raw modes only. -/
def SameButRaw (s s' : State) : Prop :=
  ∃ r bs, s' = s.withRaw r bs ∧ bs.map Block.eraseRaw = s.blocks.map Block.eraseRaw

/-- The error record takes the number of the blocks, which is the same. -/
theorem raiseError_withRaw {s : State} {bs : List Block} (hlen : bs.length = s.blocks.length) (r : Bool)
    (e : ErrorName) (sl : ErrSlot) (off : Nat) (w : Word) :
    raiseError e sl off w (s.withRaw r bs) = (raiseError e sl off w s).withRaw r bs := by
  simp [raiseError, State.withRaw, State.bcount, hlen]

theorem DecoderMove.withRaw {s t : State} {r : Bool} {bs : List Block} (h : DecoderMove s t)
    (hb : bs.map Block.eraseRaw = s.blocks.map Block.eraseRaw) :
    ∃ t', DecoderMove (s.withRaw r bs) t' ∧ SameButRaw t t' := by
  have hlen : bs.length = s.blocks.length := by simpa using congrArg List.length hb
  cases h with
  | lenShort m hp hi hs => exact ⟨_, .lenShort m hp hi hs, r, bs, rfl, hb⟩
  | lenWord m w hp hi hw => exact ⟨_, .lenWord m w hp hi hw, r, bs, rfl, hb⟩
  | bodyShort m L hp hi hl hs => exact ⟨_, .bodyShort m L hp hi hl hs, r, bs, rfl, hb⟩
  | bodyTooShort m L hp hi hl hs hL =>
    exact ⟨_, .bodyTooShort m L hp hi hl hs hL, r, bs,
      raiseError_withRaw (s := { s with pos := s.pos + 4 * L.toNat }) hlen .., hb⟩
  | bodyOpen m L hp hi hl hs hL => exact ⟨_, .bodyOpen m L hp hi hl hs hL, r, bs, rfl, hb⟩
  | desc w hp hw hv => exact ⟨_, .desc w hp hw hv, rawModeOf w, bs, rfl, hb⟩
  | descBad w hp hw hv => exact ⟨_, .descBad w hp hw hv, r, bs, raiseError_withRaw hlen .., hb⟩
  | hdr w hp hw hr => exact ⟨_, .hdr w hp hw hr, r, bs, rfl, hb⟩
  | hdrBad w hp hw hr => exact ⟨_, .hdrBad w hp hw hr, r, bs, raiseError_withRaw hlen .., hb⟩
  | evtRsv w hp hw hr => exact ⟨_, .evtRsv w hp hw hr, r, bs, raiseError_withRaw hlen .., hb⟩
  | ovf w hp hw hr ho => exact ⟨_, .ovf w hp hw hr ho, r, bs, rfl, hb⟩
  | evtLowch w hp hw hr ho hc => exact ⟨_, .evtLowch w hp hw hr ho hc, r, bs, raiseError_withRaw hlen .., hb⟩
  | evt w hp hw hr ho hc => exact ⟨_, .evt w hp hw hr ho hc, r, bs, rfl, hb⟩
  | commit hp =>
    refine ⟨_, .commit hp, r, _, rfl, ?_⟩
    simp only [commitStep_blocks, List.map_append, ← hb]
    rfl
  | checkNone m hp hi hl =>
    exact ⟨_, .checkNone m hp hi hl, r, bs,
      raiseError_withRaw (s := { s with residual := m.length - s.pos }) hlen .., hb⟩
  | checkDone m T hp hi hl hT => exact ⟨_, .checkDone m T hp hi hl (hT.trans hlen.symm), r, bs, rfl, hb⟩
  | checkMismatch m T hp hi hl hT =>
    exact ⟨_, .checkMismatch m T hp hi hl fun h => hT (h.trans hlen), r, bs,
      raiseError_withRaw (s := { s with residual := m.length - s.pos }) hlen .., hb⟩

theorem sameButRaw_stepRelation : StepRelation SameButRaw where
  refl s := ⟨s.raw, s.blocks, rfl, rfl⟩
  host := by rintro s - ⟨r, bs, rfl, -⟩; rfl
  phase := by rintro s - ⟨r, bs, rfl, -⟩; rfl
  withHost := by rintro s - ⟨r, bs, rfl, hb⟩ moves; exact ⟨r, bs, rfl, hb⟩
  start := by rintro s - ⟨r, bs, rfl, -⟩ - m; exact ⟨r, [], rfl, rfl⟩
  move := by rintro s - t ⟨r, bs, rfl, hb⟩ hm; exact hm.withRaw hb

/-- Settles O50: every move goes with other raw modes too, and its next states differ in raw modes only. -/
theorem rawModeSelectsNothing : Obligations.RawModeSelectsNothing := by
  intro s s' t h hs
  obtain ⟨t', hs', ht⟩ := sameButRaw_stepRelation.step (eraseRaw_eq_iff.1 h) hs
  exact ⟨t', hs', eraseRaw_eq_iff.2 ht⟩

/-! ### The block decoder's fields -/

/-- `s` with the block decoder's fields of `x`. -/
def State.withBlockFields (s x : State) : State :=
  { s with blkLen := x.blkLen, widx := x.widx, blkBase := x.blkBase, buf := x.buf, ovf := x.ovf, raw := x.raw,
           tpb := x.tpb, pend := x.pend }

/-- How far two states agree that differed in the block decoder's fields outside a block: outside a block still in all
else, once a body is fetched in all but the descriptor's latches, and once these are written in everything. -/
inductive SameOutsideBlock (s s' : State) : Prop where
  | outside (x : State) : s.phase.inBlock = false → s' = s.withBlockFields x → SameOutsideBlock s s'
  | atDesc (r : Bool) (v : BitVec 24) : s.phase = .desc → s' = s.withRawTpb r v → SameOutsideBlock s s'
  | same : s' = s → SameOutsideBlock s s'

theorem SameOutsideBlock.symm {s s' : State} (h : SameOutsideBlock s s') : SameOutsideBlock s' s := by
  obtain ⟨x, hp, rfl⟩ | ⟨r, v, hp, rfl⟩ | ⟨rfl⟩ := h
  · exact .outside s hp rfl
  · exact .atDesc s.raw s.tpb hp rfl
  · exact .same rfl

/-- No status view has a field of the block decoder. -/
theorem SameOutsideBlock.statusView {s s' : State} (h : SameOutsideBlock s s') : s'.statusView = s.statusView := by
  obtain ⟨x, -, rfl⟩ | ⟨r, v, -, rfl⟩ | ⟨rfl⟩ := h <;> rfl

/-- LEN, BODY and CHECK read none of the fields, and the fetch of a body writes all but the latches. -/
theorem DecoderMove.withBlockFields {s t : State} (x : State) (h : DecoderMove s t) (hp : s.phase.inBlock = false) :
    ∃ t', DecoderMove (s.withBlockFields x) t' ∧ SameOutsideBlock t t' := by
  cases h with
  | lenShort m hp hi hs => exact ⟨_, .lenShort m hp hi hs, .outside x rfl rfl⟩
  | lenWord m w hp hi hw => exact ⟨_, .lenWord m w hp hi hw, .outside x rfl rfl⟩
  | bodyShort m L hp hi hl hs => exact ⟨_, .bodyShort m L hp hi hl hs, .outside x rfl rfl⟩
  | bodyTooShort m L hp hi hl hs hL =>
    exact ⟨_, .bodyTooShort m L hp hi hl hs hL, .outside { x with pend := [] } rfl rfl⟩
  | bodyOpen m L hp hi hl hs hL => exact ⟨_, .bodyOpen m L hp hi hl hs hL, .atDesc x.raw x.tpb rfl rfl⟩
  | checkNone m hp hi hl => exact ⟨_, .checkNone m hp hi hl, .outside { x with pend := [] } rfl rfl⟩
  | checkDone m T hp hi hl hT => exact ⟨_, .checkDone m T hp hi hl hT, .outside x rfl rfl⟩
  | checkMismatch m T hp hi hl hT =>
    exact ⟨_, .checkMismatch m T hp hi hl hT, .outside { x with pend := [] } rfl rfl⟩
  | desc w hp' | descBad w hp' | hdr w hp' | hdrBad w hp' | evtRsv w hp' | ovf w hp' | evtLowch w hp' | evt w hp'
  | commit hp' => simp [hp', Phase.inBlock] at hp

/-- In DESC either word forgets the latches: the one writes them, the other leaves the block. -/
theorem DecoderMove.withOtherLatches {s t : State} (r : Bool) (v : BitVec 24) (h : DecoderMove s t)
    (hp : s.phase = .desc) : ∃ t', DecoderMove (s.withRawTpb r v) t' ∧ SameOutsideBlock t t' := by
  cases h with
  | desc w _ hw hv => exact ⟨_, .desc w hp hw hv, .same rfl⟩
  | descBad w _ hw hv =>
    exact ⟨_, .descBad w hp hw hv, .outside { s with raw := r, tpb := v, pend := [] } rfl rfl⟩
  | _ => simp_all

theorem sameOutsideBlock_stepRelation : StepRelation SameOutsideBlock where
  refl _ := .same rfl
  host h := by obtain ⟨x, -, rfl⟩ | ⟨r, v, -, rfl⟩ | ⟨rfl⟩ := h <;> rfl
  phase h := by obtain ⟨x, -, rfl⟩ | ⟨r, v, -, rfl⟩ | ⟨rfl⟩ := h <;> rfl
  withHost h moves := by
    obtain ⟨x, hp, rfl⟩ | ⟨r, v, hp, rfl⟩ | ⟨rfl⟩ := h
    · exact .outside x hp rfl
    · exact .atDesc r v hp rfl
    · exact .same rfl
  start h hp m := by
    obtain ⟨x, -, rfl⟩ | ⟨r, v, hp', rfl⟩ | ⟨rfl⟩ := h
    · exact .outside x rfl rfl
    · simp [hp'] at hp
    · exact .same rfl
  move h hm := by
    obtain ⟨x, hp, rfl⟩ | ⟨r, v, hp, rfl⟩ | ⟨rfl⟩ := h
    · exact hm.withBlockFields x hp
    · exact hm.withOtherLatches r v hp
    · exact ⟨_, hm, .same rfl⟩

theorem viewAfter_of_runsTo {s t : State} {k : Nat} (h : s.runsTo k t) : s.viewAfter k = some t.statusView := by
  rw [State.runsTo] at h
  rw [State.viewAfter, h]

theorem runsTo_of_viewAfter {s : State} {k : Nat} {v : StatusView} (h : s.viewAfter k = some v) :
    ∃ t, s.runsTo k t ∧ t.statusView = v := by
  rw [State.viewAfter] at h
  cases hr : core.run k s with
  | next t => rw [hr] at h; cases h; exact ⟨t, hr, rfl⟩
  | fault r => rw [hr] at h; cases h
  | refused r => rw [hr] at h; cases h

theorem SameOutsideBlock.viewAfter {s s' : State} {v : StatusView} {k : Nat} (h : SameOutsideBlock s s')
    (hv : s.viewAfter k = some v) : s'.viewAfter k = some v := by
  obtain ⟨t, hr, rfl⟩ := runsTo_of_viewAfter hv
  obtain ⟨t', hr', ht⟩ := sameOutsideBlock_stepRelation.run h hr
  rw [viewAfter_of_runsTo hr', ht.statusView]

/-- Settles O52: LEN is outside a block, and the relation goes both ways. -/
theorem blockDecoderFieldsNeverReachTheHost : Obligations.BlockDecoderFieldsNeverReachTheHost := by
  intro s s' hp hs k
  have h : SameOutsideBlock s s' := .outside s' (by simp [hp, Phase.inBlock]) hs
  exact Option.ext fun v => ⟨h.viewAfter, h.symm.viewAfter⟩

end Sys2Proof.Machine
end

section
/-! PROOF that the block decoder refines the source's algorithm for a block (43_event_words.md, 41_descriptor.md,
42_header.md). -/

namespace Sys2Proof.Machine

/-! ### The source's algorithm by the conditions of the machine's classes -/

theorem source_reserved_iff (w : Word) : w.toNat / 2 ^ 31 % 2 = 1 ↔ reservedHighBit w = true := by
  have := w.isLt
  rw [← Bool.toNat_eq_one, toNat_reservedHighBit]
  omega

theorem source_overflow_iff (w : Word) : w.toNat / 2 ^ 30 % 2 = 1 ↔ overflowFlag w = true := by
  rw [← Bool.toNat_eq_one, toNat_overflowFlag]

theorem not_source_reserved {w : Word} (hr : reservedHighBit w = false) : ¬w.toNat / 2 ^ 31 % 2 = 1 := by
  rw [source_reserved_iff, hr]
  decide

theorem not_source_overflow {w : Word} (ho : overflowFlag w = false) : ¬w.toNat / 2 ^ 30 % 2 = 1 := by
  rw [source_overflow_iff, ho]
  decide

theorem sourceEvents_of_reserved {w : Word} (hr : reservedHighBit w = true) (c : Nat) (ws : List Nat) :
    sourceEvents c (w.toNat :: ws) = none := by
  rw [sourceEvents, if_pos ((source_reserved_iff w).2 hr)]

theorem sourceEvents_of_overflow {w : Word} (hr : reservedHighBit w = false) (ho : overflowFlag w = true) (c : Nat)
    (ws : List Nat) : sourceEvents c (w.toNat :: ws) = sourceEvents (payloadOf w).toNat ws := by
  rw [sourceEvents, if_neg (not_source_reserved hr), if_pos ((source_overflow_iff w).2 ho), toNat_payloadOf]

theorem sourceEvents_of_lowChannel {w : Word} (hr : reservedHighBit w = false) (ho : overflowFlag w = false)
    (hc : (channelCodeOf w).toNat < 2) (c : Nat) (ws : List Nat) : sourceEvents c (w.toNat :: ws) = none := by
  rw [toNat_channelCodeOf] at hc
  rw [sourceEvents, if_neg (not_source_reserved hr), if_neg (not_source_overflow ho), if_pos hc]

theorem eventOf_toSource {w : Word} (hc : 2 ≤ (channelCodeOf w).toNat) (ovf : BitVec 24) :
    (eventOf ovf (gapFlagOf w) (channelCodeOf w) (payloadOf w)).toSource =
      (w.toNat / 2 ^ 24 % 32 - 2, ovf.toNat * 2 ^ 24 + w.toNat % 2 ^ 24, w.toNat / 2 ^ 29 % 2 == 1) := by
  rw [Event.toSource, eventOf, toNat_channelOf hc, toNat_timestampOf, toNat_channelCodeOf, toNat_payloadOf,
    gapFlagOf_eq_toNat]

theorem sourceEvents_of_channel {w : Word} (hr : reservedHighBit w = false) (ho : overflowFlag w = false)
    (hc : 2 ≤ (channelCodeOf w).toNat) (ovf : BitVec 24) (ws : List Nat) :
    sourceEvents ovf.toNat (w.toNat :: ws) = (sourceEvents ovf.toNat ws).map
      ((eventOf ovf (gapFlagOf w) (channelCodeOf w) (payloadOf w)).toSource :: ·) := by
  rw [eventOf_toSource hc]
  rw [toNat_channelCodeOf] at hc
  rw [sourceEvents, if_neg (not_source_reserved hr), if_neg (not_source_overflow ho),
    if_neg (Nat.not_lt.2 hc)]

/-! ### The event words of a block -/

/-- The decoder is in an open block with the event words `ws` still to come. -/
structure AtWords (s : State) (ws : List Word) : Prop where
  host : s.host = []
  length_buf : s.blkLen.toNat = s.buf.length
  words : s.buf.drop s.widx = ws
  phase : s.phase = if s.widx < s.blkLen.toNat then .evt else .commit

theorem AtWords.nil {s : State} (h : AtWords s []) : s.phase = .commit := by
  have hle := List.drop_eq_nil_iff.1 h.words
  rw [h.phase, if_neg (by rw [h.length_buf]; omega)]

theorem AtWords.cons {s : State} {w : Word} {ws : List Word} (h : AtWords s (w :: ws)) :
    s.phase = .evt ∧ s.buf[s.widx]? = some w := by
  have hw : s.buf[s.widx]? = some w := by rw [← List.head?_drop, h.words, List.head?_cons]
  exact ⟨by rw [h.phase, if_pos (h.length_buf ▸ (List.getElem?_eq_some_iff.1 hw).1)], hw⟩

/-- A word that is passed leaves the words after it. -/
theorem atWords_advance {s : State} {w : Word} {ws : List Word} (hh : s.host = [])
    (hlen : s.blkLen.toNat = s.buf.length) (hw : s.buf.drop s.widx = w :: ws) : AtWords (advance s) ws :=
  ⟨hh, hlen, by rw [advance_buf, advance_widx, ← List.drop_drop, hw, List.drop_one, List.tail_cons], rfl⟩

/-- `s` in COMMIT with the events `es` added to those pending; where the counter and the cursor stand is left open. -/
def State.wordsPassed (s : State) (i : Nat) (o : BitVec 24) (es : List Event) : State :=
  { s with phase := .commit, widx := i, ovf := o, pend := s.pend ++ es }

theorem wordsPassed_nil {s : State} (hp : s.phase = .commit) : s.wordsPassed s.widx s.ovf [] = s := by
  rw [State.wordsPassed, List.append_nil, ← hp]

/-- An event as the source gives it: channel, timestamp, gap. -/
abbrev SourceEvent := Nat × Nat × Bool

/-- How the decoder answers what the source makes of `n` event words: all of them passed and the events pending, or
ERROR on the way with no block added. -/
def EventsOutcome (s : State) (n : Nat) : Option (List SourceEvent) → Prop
  | some out => ∃ i o es, s.runsTo n (s.wordsPassed i o es) ∧ es.map Event.toSource = out
  | none => ∃ k t, k ≤ n ∧ s.runsTo k t ∧ t.phase = .error ∧ t.blocks = s.blocks

theorem eventsOutcome_nil {s : State} (hp : s.phase = .commit) : EventsOutcome s 0 (some []) := by
  refine ⟨s.widx, s.ovf, [], ?_, rfl⟩
  rw [wordsPassed_nil hp]
  exact runsTo_zero s

theorem eventsOutcome_error {s t : State} (h : step s = .next t) (hp : t.phase = .error) (hb : t.blocks = s.blocks)
    (n : Nat) : EventsOutcome s (n + 1) none :=
  ⟨1, t, by omega, runsTo_succ h (runsTo_zero t), hp, hb⟩

theorem eventsOutcome_ovf {s : State} {v : BitVec 24} {n : Nat} {out : Option (List SourceEvent)}
    (h : step s = .next (advance { s with ovf := v })) (hout : EventsOutcome (advance { s with ovf := v }) n out) :
    EventsOutcome s (n + 1) out := by
  cases out with
  | none =>
    obtain ⟨k, t, hk, hr, ht⟩ := hout
    exact ⟨k + 1, t, by omega, runsTo_succ h hr, ht⟩
  | some out =>
    obtain ⟨i, o, es, hr, hes⟩ := hout
    exact ⟨i, o, es, runsTo_succ h hr, hes⟩

theorem eventsOutcome_evt {s : State} {e : Event} {n : Nat} {out : Option (List SourceEvent)}
    (h : step s = .next (advance { s with pend := s.pend ++ [e] }))
    (hout : EventsOutcome (advance { s with pend := s.pend ++ [e] }) n out) :
    EventsOutcome s (n + 1) (out.map (e.toSource :: ·)) := by
  cases out with
  | none =>
    obtain ⟨k, t, hk, hr, ht⟩ := hout
    exact ⟨k + 1, t, by omega, runsTo_succ h hr, ht⟩
  | some out =>
    obtain ⟨i, o, es, hr, hes⟩ := hout
    refine ⟨i, o, e :: es, runsTo_succ h ?_, congrArg (e.toSource :: ·) hes⟩
    rw [State.wordsPassed, advance_pend, List.append_assoc] at hr
    exact hr

/-- The loop over the event words, class by class (43_event_words.md R180). -/
theorem run_eventWords {ws : List Word} {s : State} (h : AtWords s ws) :
    EventsOutcome s ws.length (sourceEvents s.ovf.toNat (ws.map BitVec.toNat)) := by
  induction ws generalizing s with
  | nil => exact eventsOutcome_nil h.nil
  | cons w ws ih =>
    obtain ⟨hp, hw⟩ := h.cons
    rw [List.map_cons, List.length_cons]
    obtain ⟨hr, -⟩ | ⟨hr, ho, -⟩ | ⟨hr, ho, hc, -⟩ | ⟨hr, ho, hc, -⟩ := decodeEvent_cases w
    · rw [sourceEvents_of_reserved hr]
      exact eventsOutcome_error ((DecoderMove.evtRsv w hp hw hr).step_eq h.host) rfl rfl _
    · rw [sourceEvents_of_overflow hr ho]
      exact eventsOutcome_ovf ((DecoderMove.ovf w hp hw hr ho).step_eq h.host)
        (ih (atWords_advance (s := { s with ovf := payloadOf w }) h.host h.length_buf h.words))
    · rw [sourceEvents_of_lowChannel hr ho hc]
      exact eventsOutcome_error ((DecoderMove.evtLowch w hp hw hr ho hc).step_eq h.host) rfl rfl _
    · rw [sourceEvents_of_channel hr ho hc]
      exact eventsOutcome_evt ((DecoderMove.evt w hp hw hr ho hc).step_eq h.host)
        (ih (atWords_advance (s := { s with pend := s.pend ++ [eventOf ..] }) h.host h.length_buf h.words))

/-! ### The whole block -/

theorem sourceBlock_of_invalid {d : Word} (hv : descValid d = false) (ws : List Nat) :
    sourceBlock (d.toNat :: ws) = none := by
  cases ws with
  | nil => rfl
  | cons h ws => rw [sourceBlock, if_neg (mt (descValid_iff_top d).2 (by simp [hv]))]

theorem sourceBlock_of_reserved {h : Word} (hr : reservedHighBit h = true) (d : Nat) (ws : List Nat) :
    sourceBlock (d :: h.toNat :: ws) = none := by
  rw [sourceBlock, if_pos ((source_reserved_iff h).2 hr), ite_self]

theorem sourceBlock_of_accepted {d h : Word} (hv : descValid d = true) (hr : reservedHighBit h = false)
    (ws : List Nat) : sourceBlock (d.toNat :: h.toNat :: ws) =
      (sourceEvents 0 ws).map fun es => (rawModeOf d, (payloadOf d).toNat, es) := by
  rw [sourceBlock, if_pos ((descValid_iff_top d).1 hv), if_neg (not_source_reserved hr),
    rawModeOf_eq_toNat, toNat_payloadOf]

/-- A block as the source gives it: raw mode, time per bin, events. -/
abbrev SourceBlock := Bool × Nat × List SourceEvent

/-- How the decoder answers what the source makes of a block of `n` words: the block is committed, or ERROR is entered
with no block added. -/
def BlockOutcome (s : State) (n : Nat) : Option SourceBlock → Prop
  | some b => ∃ t blk, s.runsTo (n + 1) t ∧ t.phase = .len ∧ t.pos = s.pos ∧ t.input = s.input ∧
      t.lastLen = s.lastLen ∧ t.blocks = s.blocks ++ [blk] ∧ blk.toSource = b
  | none => ∃ k t, k ≤ n ∧ s.runsTo k t ∧ t.phase = .error ∧ t.blocks = s.blocks

/-- The state after an accepted descriptor. -/
def afterDescriptor (d : Word) (s : State) : State :=
  { s with raw := rawModeOf d, tpb := payloadOf d, widx := s.widx + 1, phase := .hdr }

/-- The state after an accepted descriptor and an accepted header. -/
def afterHeader (d : Word) (s : State) : State := advance (afterDescriptor d s)

/-- Descriptor and header accepted, the block is what its event words are. -/
theorem blockOutcome_of_events {s : State} {d : Word} {n : Nat} {out : Option (List SourceEvent)}
    (hh : s.host = []) (hpend : s.pend = []) (hrun : s.runsTo 2 (afterHeader d s))
    (hout : EventsOutcome (afterHeader d s) n out) :
    BlockOutcome s (n + 2) (out.map fun es => (rawModeOf d, (payloadOf d).toNat, es)) := by
  cases out with
  | none =>
    obtain ⟨k, t, hk, hr, ht⟩ := hout
    exact ⟨2 + k, t, by omega, runsTo_trans hrun hr, ht⟩
  | some out =>
    obtain ⟨i, o, es, hr, rfl⟩ := hout
    have hpend : (afterHeader d s).pend = [] := hpend
    have hcommit := (DecoderMove.commit (s := (afterHeader d s).wordsPassed i o es) rfl).runsTo hh
    have hall := runsTo_trans hrun (runsTo_trans hr hcommit)
    rw [Nat.add_comm 2 (n + 1)] at hall
    refine ⟨_, _, hall, rfl, rfl, rfl, rfl, rfl, ?_⟩
    simp only [Block.toSource, State.wordsPassed, hpend, List.nil_append]
    rfl

/-- A block in DESC is decoded as the source decodes its words. -/
theorem run_block {s : State} {d h : Word} {ws : List Word} (hh : s.host = []) (hp : s.phase = .desc)
    (hi : s.widx = 0) (hbuf : s.buf = d :: h :: ws) (hlen : s.blkLen.toNat = s.buf.length) (hovf : s.ovf = 0#24)
    (hpend : s.pend = []) : BlockOutcome s (ws.length + 2) (sourceBlock (s.buf.map BitVec.toNat)) := by
  have hd : s.buf[s.widx]? = some d := by rw [hi, hbuf, List.getElem?_cons_zero]
  rw [hbuf, List.map_cons, List.map_cons]
  cases hv : descValid d with
  | false =>
    rw [sourceBlock_of_invalid hv]
    exact ⟨1, _, by omega, (DecoderMove.descBad d hp hd hv).runsTo hh, rfl, rfl⟩
  | true =>
    have hdesc : s.runsTo 1 (afterDescriptor d s) := (DecoderMove.desc d hp hd hv).runsTo hh
    have hhdr : (afterDescriptor d s).buf[(afterDescriptor d s).widx]? = some h := by
      simp [afterDescriptor, hi, hbuf]
    have hhh : (afterDescriptor d s).host = [] := hh
    cases hr : reservedHighBit h with
    | true =>
      rw [sourceBlock_of_reserved hr]
      exact ⟨2, _, by omega, runsTo_trans hdesc ((DecoderMove.hdrBad h rfl hhdr hr).runsTo hhh), rfl, rfl⟩
    | false =>
      rw [sourceBlock_of_accepted hv hr]
      have hrun : s.runsTo 2 (afterHeader d s) := runsTo_trans hdesc ((DecoderMove.hdr h rfl hhdr hr).runsTo hhh)
      have hwords : AtWords (afterHeader d s) ws :=
        atWords_advance (w := h) hhh hlen (by simp [afterDescriptor, hi, hbuf])
      have hevents := run_eventWords hwords
      have hzero : (afterHeader d s).ovf.toNat = 0 := congrArg BitVec.toNat hovf
      rw [hzero] at hevents
      exact blockOutcome_of_events hh hpend hrun hevents

/-- Settles O54: the two outcomes of a block. -/
theorem blockDecodesAsTheSource : Obligations.BlockDecodesAsTheSource := by
  intro s d h ws hh hp hi hbuf hlen hovf hpend
  have hout := run_block hh hp hi hbuf hlen hovf hpend
  exact ⟨fun b hb => by rwa [hb] at hout, fun hb => by rwa [hb] at hout⟩

end Sys2Proof.Machine
end

section
/-! PROOF that the machine refines the source's `decode` (40_stream_framing.md) for every input. -/

namespace Sys2Proof.Machine

/-! ### The source's reads are the machine's -/

theorem sourceWord_map : ∀ bs : List Byte,
    sourceWord (bs.map BitVec.toNat) =
      (wordsOf bs).head?.map fun w => (w.toNat, (bs.drop 4).map BitVec.toNat)
  | b0 :: b1 :: b2 :: b3 :: rest => by
    simp only [List.map_cons, sourceWord, wordsOf, List.head?_cons, Option.map_some, toNat_leWord, List.drop_succ_cons,
      List.drop_zero]
  | [] | [_] | [_, _] | [_, _, _] => rfl

theorem sourceWord_of_wordAt {m : Memory} {a : Nat} {w : Word} (hw : m.wordAt a = some w) :
    sourceWord ((m.drop a).map BitVec.toNat) = some (w.toNat, (m.drop (a + 4)).map BitVec.toNat) := by
  rw [sourceWord_map, ← Memory.wordAt_eq (Memory.wordAt_some_bound hw), hw, Option.map_some, List.drop_drop]

theorem sourceWord_of_short {m : Memory} {a : Nat} (h : m.length < a + 4) :
    sourceWord ((m.drop a).map BitVec.toNat) = none := by
  have hnil : wordsOf (m.drop a) = [] := by
    rw [← List.length_eq_zero_iff, wordsOf_length, List.length_drop]
    omega
  rw [sourceWord_map, hnil, List.head?_nil, Option.map_none]

theorem sourceWords_map (n : Nat) (bs : List Byte) (h : 4 * n ≤ bs.length) :
    sourceWords n (bs.map BitVec.toNat) =
      some ((wordsOf (bs.take (4 * n))).map BitVec.toNat, (bs.drop (4 * n)).map BitVec.toNat) := by
  induction n generalizing bs with
  | zero => rfl
  | succ n ih =>
    match bs, h with
    | b0 :: b1 :: b2 :: b3 :: rest, h =>
      have hrest : 4 * n ≤ rest.length := by simp only [List.length_cons] at h; omega
      rw [sourceWords, sourceWord_map, wordsOf, List.head?_cons, Option.map_some]
      simp only [List.drop_succ_cons, List.drop_zero, ih rest hrest, Option.map_some]
      rfl
    | [], h | [_], h | [_, _], h | [_, _, _], h => simp only [List.length_cons, List.length_nil] at h; omega

/-- A whole body, as the source reads it, is the words of the machine's read and the bytes after it. -/
theorem sourceWords_read {m : Memory} {a n : Nat} (h : a + 4 * n ≤ m.length) :
    sourceWords n ((m.drop a).map BitVec.toNat) =
      some ((wordsOf (m.read a (4 * n))).map BitVec.toNat, (m.drop (a + 4 * n)).map BitVec.toNat) := by
  rw [sourceWords_map n (m.drop a) (by rw [List.length_drop]; omega), List.drop_drop]
  rfl

/-! ### One turn of the source's loop -/

theorem sourceStream_end {m : Memory} {a : Nat} (h : m.length < a + 4) (fuel : Nat) (lastLen : Option Nat)
    (blocks : List SourceBlock) :
    sourceStream (fuel + 1) ((m.drop a).map BitVec.toNat) lastLen blocks =
      if lastLen = some blocks.length then some (blocks, m.length - a) else none := by
  rw [sourceStream, sourceWord_of_short h]
  simp only [List.length_map, List.length_drop]

theorem sourceStream_trailer {m : Memory} {a : Nat} {L : Word} (hw : m.wordAt a = some L)
    (h : m.length < a + 4 + 4 * L.toNat) (fuel : Nat) (lastLen : Option Nat)
    (blocks : List SourceBlock) :
    sourceStream (fuel + 1) ((m.drop a).map BitVec.toNat) lastLen blocks =
      if L.toNat = blocks.length then some (blocks, m.length - (a + 4)) else none := by
  have hshort : ¬4 * L.toNat ≤ m.length - (a + 4) := by
    have := Memory.wordAt_some_bound hw
    omega
  rw [sourceStream, sourceWord_of_wordAt hw]
  simp only [List.length_map, List.length_drop, hshort, if_false]

theorem sourceStream_block {m : Memory} {a : Nat} {L : Word} (hw : m.wordAt a = some L)
    (h : a + 4 + 4 * L.toNat ≤ m.length) (fuel : Nat) (lastLen : Option Nat)
    (blocks : List SourceBlock) :
    sourceStream (fuel + 1) ((m.drop a).map BitVec.toNat) lastLen blocks =
      (sourceBlock ((wordsOf (m.read (a + 4) (4 * L.toNat))).map BitVec.toNat)).bind fun b =>
        sourceStream fuel ((m.drop (a + 4 + 4 * L.toNat)).map BitVec.toNat) (some L.toNat) (blocks ++ [b]) := by
  have hwhole : 4 * L.toNat ≤ m.length - (a + 4) := by omega
  rw [sourceStream, sourceWord_of_wordAt hw]
  simp only [List.length_map, List.length_drop, hwhole, if_true, sourceWords_read h]
  cases sourceBlock ((wordsOf (m.read (a + 4) (4 * L.toNat))).map BitVec.toNat) <;> rfl

/-! ### The run of the machine -/

/-- The end of a run as the source answers: DONE with its blocks and unread bytes, or ERROR. -/
def EndsAs (t : State) : Option (List SourceBlock × Nat) → Prop
  | some (blocks, unread) => t.phase = .done ∧ t.blocks.map Block.toSource = blocks ∧ t.residual = unread
  | none => t.phase = .error

theorem EndsAs.ended {t : State} {out : Option (List SourceBlock × Nat)}
    (h : EndsAs t out) : t.phase.ended = true := by
  cases out with
  | none => rw [show t.phase = .error from h, Phase.ended]
  | some out => rw [show t.phase = .done from h.1, Phase.ended]

/-- From `s` the run reaches an end as the source answers. -/
def RunEndsAs (s : State) (out : Option (List SourceBlock × Nat)) : Prop :=
  ∃ k t, s.runsTo k t ∧ EndsAs t out

theorem RunEndsAs.after {s u : State} {k : Nat} {out : Option (List SourceBlock × Nat)}
    (hr : s.runsTo k u) (h : RunEndsAs u out) : RunEndsAs s out := by
  obtain ⟨j, t, ht, hend⟩ := h
  exact ⟨k + j, t, runsTo_trans hr ht, hend⟩

theorem runEndsAs_check {s : State} {m : Memory} (hh : s.host = []) (hp : s.phase = .check)
    (hi : s.input = some m) :
    RunEndsAs s (if s.lastLen.map BitVec.toNat = some (s.blocks.map Block.toSource).length then
      some (s.blocks.map Block.toSource, m.length - s.pos) else none) := by
  rw [List.length_map]
  cases hl : s.lastLen with
  | none => exact ⟨1, _, (DecoderMove.checkNone m hp hi hl).runsTo hh, rfl⟩
  | some T =>
    simp only [Option.map_some, Option.some_inj]
    by_cases hT : T.toNat = s.blocks.length
    · rw [if_pos hT]
      exact ⟨1, _, (DecoderMove.checkDone m T hp hi hl hT).runsTo hh, rfl, rfl, rfl⟩
    · rw [if_neg hT]
      exact ⟨1, _, (DecoderMove.checkMismatch m T hp hi hl hT).runsTo hh, rfl⟩

/-- With no host move to come the host stays without one. -/
theorem step_keeps_noHost {s t : State} (hh : s.host = []) (h : step s = .next t) : t.host = [] :=
  (step_nil_move hh h).keeps_host.trans hh

theorem sourceBlock_of_short {ws : List Nat} (h : ws.length < 2) : sourceBlock ws = none := by
  match ws, h with
  | [], _ | [_], _ => rfl

/-- The block that the BODY step opens is decoded as the source decodes its words. -/
theorem run_openBlock {s : State} {m : Memory} {L : Word} (hh : s.host = []) (hs : s.pos + 4 * L.toNat ≤ m.length)
    (hL : 2 ≤ L.toNat) :
    BlockOutcome (openBlock L s.pos (m.read s.pos (4 * L.toNat)) { s with pos := s.pos + 4 * L.toNat }) L.toNat
      (sourceBlock ((wordsOf (m.read s.pos (4 * L.toNat))).map BitVec.toNat)) := by
  have hlen := wordsOf_read_length hs
  match hws : wordsOf (m.read s.pos (4 * L.toNat)), hlen with
  | [], hlen | [_], hlen => simp only [List.length_cons, List.length_nil] at hlen; omega
  | d :: h :: ws, hlen =>
    have hout := run_block
      (s := openBlock L s.pos (m.read s.pos (4 * L.toNat)) { s with pos := s.pos + 4 * L.toNat })
      hh rfl rfl hws (wordsOf_read_length hs).symm rfl rfl
    rwa [openBlock_buf, hws, show ws.length + 2 = L.toNat from hlen] at hout

/-- A whole body in which the source has no block ends in ERROR. -/
theorem run_body_rejected {s : State} {m : Memory} {L : Word} (hh : s.host = []) (hp : s.phase = .body)
    (hi : s.input = some m) (hl : s.lastLen = some L) (hs : s.pos + 4 * L.toNat ≤ m.length)
    (hb : sourceBlock ((wordsOf (m.read s.pos (4 * L.toNat))).map BitVec.toNat) = none) : RunEndsAs s none := by
  by_cases hL : L.toNat < 2
  · exact ⟨1, _, (DecoderMove.bodyTooShort m L hp hi hl hs hL).runsTo hh, rfl⟩
  · have hout := run_openBlock hh hs (Nat.not_lt.1 hL)
    rw [hb] at hout
    obtain ⟨k, t, -, hr, ht, -⟩ := hout
    exact .after ((DecoderMove.bodyOpen m L hp hi hl hs (Nat.not_lt.1 hL)).runsTo hh) ⟨k, t, hr, ht⟩

/-- A whole body in which the source has a block leads back to LEN with that block added; it has two words or more. -/
theorem run_body_accepted {s : State} {m : Memory} {L : Word} (hh : s.host = []) (hp : s.phase = .body)
    (hi : s.input = some m) (hl : s.lastLen = some L) (hs : s.pos + 4 * L.toNat ≤ m.length) {b : SourceBlock}
    (hb : sourceBlock ((wordsOf (m.read s.pos (4 * L.toNat))).map BitVec.toNat) = some b) :
    2 ≤ L.toNat ∧ ∃ k t blk, s.runsTo k t ∧ t.phase = .len ∧ t.pos = s.pos + 4 * L.toNat ∧ t.input = some m ∧
      t.lastLen = some L ∧ t.blocks = s.blocks ++ [blk] ∧ blk.toSource = b := by
  have hL : 2 ≤ L.toNat := by
    by_contra hlt
    rw [sourceBlock_of_short (by rw [List.length_map, wordsOf_read_length hs]; omega)] at hb
    cases hb
  have hout := run_openBlock hh hs hL
  rw [hb] at hout
  obtain ⟨t, blk, hr, hp', hpos, hi', hl', hblk⟩ := hout
  exact ⟨hL, _, t, blk, runsTo_trans ((DecoderMove.bodyOpen m L hp hi hl hs hL).runsTo hh) hr, hp', hpos,
    hi'.trans hi, hl'.trans hl, hblk⟩

/-- From LEN the machine runs as the source's loop does, one turn per length word. -/
theorem run_stream (fuel : Nat) {s : State} {m : Memory} (hh : s.host = []) (hp : s.phase = .len)
    (hi : s.input = some m) (hfuel : m.length - s.pos < fuel) :
    RunEndsAs s (sourceStream fuel ((m.drop s.pos).map BitVec.toNat) (s.lastLen.map BitVec.toNat)
      (s.blocks.map Block.toSource)) := by
  induction fuel generalizing s with
  | zero => omega
  | succ fuel ih =>
    by_cases hword : m.length < s.pos + 4
    · rw [sourceStream_end hword]
      exact .after ((DecoderMove.lenShort m hp hi hword).runsTo hh) (runEndsAs_check hh rfl hi)
    · obtain ⟨L, hw⟩ := Option.isSome_iff_exists.1 ((m.wordAt_isSome_iff s.pos).2 (Nat.not_lt.1 hword))
      have hlen := (DecoderMove.lenWord m L hp hi hw).runsTo hh
      refine .after hlen ?_
      have hh' : (recordLength L s).host = [] := hh
      by_cases hbody : m.length < s.pos + 4 + 4 * L.toNat
      · rw [sourceStream_trailer hw hbody]
        have hcheck := runEndsAs_check (s := endOfStream (recordLength L s)) hh rfl hi
        simp only [endOfStream_lastLen, recordLength, Option.map_some, Option.some_inj] at hcheck
        exact .after ((DecoderMove.bodyShort (s := recordLength L s) m L rfl hi rfl hbody).runsTo hh') hcheck
      · rw [Nat.not_lt] at hbody
        rw [sourceStream_block hw hbody]
        cases hb : sourceBlock ((wordsOf (m.read (s.pos + 4) (4 * L.toNat))).map BitVec.toNat) with
        | none => exact run_body_rejected (s := recordLength L s) hh' rfl hi rfl hbody hb
        | some b =>
          obtain ⟨hL, k, t, blk, hr, hp', hpos, hi', hl', hblk, rfl⟩ :=
            run_body_accepted (s := recordLength L s) hh' rfl hi rfl hbody hb
          have hpos : t.pos = s.pos + 4 + 4 * L.toNat := hpos
          have hblk : t.blocks = s.blocks ++ [blk] := hblk
          have hrest := ih (runsTo_keeps (P := fun s => s.host = []) step_keeps_noHost hh' hr) hp' hi' (by omega)
          rw [hpos, hl', hblk, List.map_append, List.map_singleton] at hrest
          exact .after hr hrest

/-! ### The end of a run is the only one -/

theorem runsTo_stop_unique {s t t' : State} {k k' : Nat} (h : s.runsTo k t) (h' : s.runsTo k' t')
    (ht : ∀ u, step t ≠ .next u) (ht' : ∀ u, step t' ≠ .next u) : t = t' := by
  induction k generalizing s k' with
  | zero =>
    cases h
    cases k' with
    | zero => cases h'; rfl
    | succ k' =>
      obtain ⟨u, hstep, -⟩ := runsTo_succ_iff.1 h'
      exact absurd hstep (ht u)
  | succ k ih =>
    obtain ⟨u, hstep, h⟩ := runsTo_succ_iff.1 h
    cases k' with
    | zero => cases h'; exact absurd hstep (ht' u)
    | succ k' =>
      obtain ⟨u', hstep', h'⟩ := runsTo_succ_iff.1 h'
      cases hstep.symm.trans hstep'
      exact ih h h'

/-- A decode that has ended takes no further step. -/
theorem step_ended_noHost {t : State} (hh : t.host = []) (he : t.phase.ended = true) (u : State) :
    step t ≠ .next u := by
  intro h
  rw [Phase.ended_of_not_quiescent (step_nil_move hh h).not_quiescent] at he
  cases he

/-- Settles O55: the run from reset reaches an end as the source answers, and it has no other end. -/
theorem decodeAgreesWithTheSource : Obligations.DecodeAgreesWithTheSource := by
  intro m k t hr he
  have hstart : (State.started m).host = [] := rfl
  have hnoHost {k : Nat} {u : State} (h : (State.started m).runsTo k u) : u.host = [] :=
    runsTo_keeps (P := fun s => s.host = []) step_keeps_noHost hstart h
  obtain ⟨k', t', hr', hend⟩ := run_stream (m.length + 1) hstart rfl rfl (Nat.lt_succ_self m.length)
  have ht : t = t' := by
    cases k with
    | zero => cases hr; cases he
    | succ k =>
      obtain ⟨u, hstep, hr⟩ := runsTo_succ_iff.1 hr
      cases (step_decoding m).symm.trans hstep
      exact runsTo_stop_unique hr hr' (step_ended_noHost (hnoHost hr) he)
        (step_ended_noHost (hnoHost hr') hend.ended)
  subst ht
  have hend : EndsAs t (sourceDecode m) := hend
  exact ⟨fun bs r h => by rwa [h] at hend, fun h => by rwa [h] at hend⟩

end Sys2Proof.Machine
end
